-- ==== Sys2Proof/Word.lean ====
section
/-! DEFINITION. The word types: what the spec treats as bits (00_scope.md R6, R8). -/

namespace Sys2Proof

/-- A memory cell, a general register, a timer: 8 bits (R6). -/
abbrev Byte := BitVec 8

/-- An instruction word, PC, I, a stack entry: 16 bits (R6, D2). -/
abbrev Word := BitVec 16

/-- A 12-bit address operand `nnn` (30_encoding.md R46). -/
abbrev Addr := BitVec 12

/-- A general register's index, or a key code: 0x0 to 0xF (10_state.md R14, R29). -/
abbrev Reg := Fin 16

/-- Two bytes combined big-endian: the first is bits 15:8 (20_memory.md R37). -/
def Word.ofBytes (hi lo : Byte) : Word := hi ++ lo

/-- Bits 15:8 of a word. -/
def Word.hiByte (w : Word) : Byte := w.extractLsb' 8 8

/-- Bits 7:0 of a word. -/
def Word.loByte (w : Word) : Byte := w.extractLsb' 0 8

end Sys2Proof
end

