-- ==== Sys2Proof/Config.lean ====
section
/-! DEFINITION. What the spec leaves to the implementation: the parameters of 00_scope.md R7 with their defaults, and
the one free value, the random byte of `Cxkk` (R7, D10). -/

namespace Sys2Proof.Config

/-- `P_SHIFT_SRC`: which register `8xy6` and `8xyE` shift (45_shifts.md R85, D7). -/
inductive ShiftSrc where
  | x
  | y
deriving DecidableEq, Repr

/-- `P_LDST_INDEX`: whether `Fx55` and `Fx65` advance I (48_bcd_block_transfer.md R96, R100, D8). -/
inductive LdstIndex where
  | keep
  | advance
deriving DecidableEq, Repr

/-- `P_FONT_WRITE`: a store into 0x000 to 0x04F (20_memory.md R34, D4). -/
inductive FontWrite where
  | fault
  | allow
deriving DecidableEq, Repr

/-- `P_EXTRAS`: whether `6xkk`, `Cxkk` and `Fx29` are recognised (30_encoding.md R58, D9). -/
inductive Extras where
  | on
  | off
deriving DecidableEq, Repr

/-- `FONT`: the 80-byte table of sixteen glyphs of 5 bytes (10_state.md R30). -/
abbrev Font := Vector Byte 80

/-- The parameters of 00_scope.md R7, "each an argument of the model". -/
structure Params where
  shiftSrc  : ShiftSrc
  ldstIndex : LdstIndex
  fontWrite : FontWrite
  extras    : Extras
  font      : Font
deriving DecidableEq, Repr

/-- The default `FONT`: the table of 10_state.md R30, digit 0 to digit F
(PRESUMED by the spec: from general knowledge, D25, log 3). -/
def defaultFont : Font :=
  #v[0xF0, 0x90, 0x90, 0x90, 0xF0,
     0x20, 0x60, 0x20, 0x20, 0x70,
     0xF0, 0x10, 0xF0, 0x80, 0xF0,
     0xF0, 0x10, 0xF0, 0x10, 0xF0,
     0x90, 0x90, 0xF0, 0x10, 0x10,
     0xF0, 0x80, 0xF0, 0x10, 0xF0,
     0xF0, 0x80, 0xF0, 0x90, 0xF0,
     0xF0, 0x10, 0x20, 0x40, 0x40,
     0xF0, 0x90, 0xF0, 0x90, 0xF0,
     0xF0, 0x90, 0xF0, 0x10, 0xF0,
     0xF0, 0x90, 0xF0, 0x90, 0x90,
     0xE0, 0x90, 0xE0, 0x90, 0xE0,
     0xF0, 0x80, 0x80, 0x80, 0xF0,
     0xE0, 0x90, 0x90, 0x90, 0xE0,
     0xF0, 0x80, 0xF0, 0x80, 0xF0,
     0xF0, 0x80, 0xF0, 0x80, 0x80]

/-- The defaults of R7's table (DESIGN CHOICE of the spec: D4, D7, D8, D9, D25; log 3, 6, 7, 8, 9). -/
def defaultParams : Params where
  shiftSrc  := .x
  ldstIndex := .keep
  fontWrite := .fault
  extras    := .on
  font      := defaultFont

/-- The random byte of the k-th draw of `Cxkk`: a FREE VALUE, "any value in 0 to 255" (00_scope.md R7,
43_load_bitwise.md R79, D10). It has no body, so nothing can be proved of its value (log 4). -/
opaque freeByte : Nat → Byte

end Sys2Proof.Config
end

