-- ==== Sys2Proof/Syntax.lean ====
section
/-! DEFINITION. The instructions: one constructor per row of spec/opcode_table.json (30_encoding.md R52), in the
table's order. Operands are the fields of R46 at their exact widths: register indices are `Reg`, `nnn` 12 bits,
`kk` 8 bits, the sprite height `n` a number 0 to 15. -/

namespace Sys2Proof

inductive Instr where
  | nop                              -- 0000
  | cls                              -- 00E0
  | ret                              -- 00EE
  | jp (nnn : Addr)                  -- 1nnn
  | call (nnn : Addr)                -- 2nnn
  | seByte (x : Reg) (kk : Byte)     -- 3xkk
  | sneByte (x : Reg) (kk : Byte)    -- 4xkk
  | seReg (x y : Reg)                -- 5xy0
  | ldByte (x : Reg) (kk : Byte)     -- 6xkk (P_EXTRAS)
  | addByte (x : Reg) (kk : Byte)    -- 7xkk
  | ldReg (x y : Reg)                -- 8xy0
  | orReg (x y : Reg)                -- 8xy1
  | andReg (x y : Reg)               -- 8xy2
  | xorReg (x y : Reg)               -- 8xy3
  | addReg (x y : Reg)               -- 8xy4
  | subReg (x y : Reg)               -- 8xy5
  | shr (x y : Reg)                  -- 8xy6
  | subn (x y : Reg)                 -- 8xy7
  | shl (x y : Reg)                  -- 8xyE
  | sneReg (x y : Reg)               -- 9xy0
  | ldI (nnn : Addr)                 -- Annn
  | jpV0 (nnn : Addr)                -- Bnnn
  | rnd (x : Reg) (kk : Byte)        -- Cxkk (P_EXTRAS)
  | drw (x y : Reg) (n : Fin 16)     -- Dxyn
  | skp (x : Reg)                    -- Ex9E
  | sknp (x : Reg)                   -- ExA1
  | ldVxDt (x : Reg)                 -- Fx07
  | ldVxK (x : Reg)                  -- Fx0A
  | ldDtVx (x : Reg)                 -- Fx15
  | ldStVx (x : Reg)                 -- Fx18
  | addI (x : Reg)                   -- Fx1E
  | ldF (x : Reg)                    -- Fx29 (P_EXTRAS)
  | ldB (x : Reg)                    -- Fx33
  | ldMemVx (x : Reg)                -- Fx55
  | ldVxMem (x : Reg)                -- Fx65
deriving DecidableEq, Repr

/-- The three conventional instructions that the spec adds under `P_EXTRAS` (00_scope.md R3, 30_encoding.md R58). -/
def Instr.isExtra : Instr → Bool
  | .ldByte _ _ => true
  | .rnd _ _ => true
  | .ldF _ => true
  | .nop | .cls | .ret | .jp _ | .call _ | .seByte _ _ | .sneByte _ _ | .seReg _ _ | .addByte _ _
  | .ldReg _ _ | .orReg _ _ | .andReg _ _ | .xorReg _ _ | .addReg _ _ | .subReg _ _ | .shr _ _ | .subn _ _
  | .shl _ _ | .sneReg _ _ | .ldI _ | .jpV0 _ | .drw _ _ _ | .skp _ | .sknp _ | .ldVxDt _ | .ldVxK _
  | .ldDtVx _ | .ldStVx _ | .addI _ | .ldB _ | .ldMemVx _ | .ldVxMem _ => false

end Sys2Proof
end

