-- ==== Sys2Proof/WellFormed.lean ====
section
/-! DEFINITION. Which instructions a machine recognises. The widths of the operands (30_encoding.md R46, R47; 10_state.md
R14) are carried by the types of Syntax.lean, so the one check left is R58's: the three extras need `P_EXTRAS = ON`. -/

namespace Sys2Proof

/-- `i` is an instruction of the machine with parameters `p` (30_encoding.md R58). -/
def Instr.wellFormed (p : Config.Params) (i : Instr) : Bool :=
  !i.isExtra || p.extras = .on

end Sys2Proof
end

