-- ==== Sys2Proof/Decode.lean ====
section
/-! DEFINITION. The decoder of 30_encoding.md (R45 to R60), total on any bytes, and after it the encoder. -/

namespace Sys2Proof

/-- The fields of an instruction word (30_encoding.md R46). -/
structure Fields where
  c   : BitVec 4
  x   : BitVec 4
  y   : BitVec 4
  n   : BitVec 4
  nnn : Addr
  kk  : Byte
deriving DecidableEq, Repr

/-- Field extraction: c = w[15:12], x = w[11:8], y = w[7:4], n = w[3:0], nnn = w[11:0], kk = w[7:0] (R46).
It never fails (R48). -/
def fieldsOf (w : Word) : Fields where
  c   := w.extractLsb' 12 4
  x   := w.extractLsb' 8 4
  y   := w.extractLsb' 4 4
  n   := w.extractLsb' 0 4
  nnn := w.extractLsb' 0 12
  kk  := w.extractLsb' 0 8

/-- Why bytes are no instruction. -/
inductive Reject where
  /-- Fewer than two bytes: every instruction is two (R45). -/
  | truncated
  /-- The word is outside the rows of R52 (R53 to R57, R59). -/
  | unrecognised (w : Word)
deriving DecidableEq, Repr

/-- The register that a nibble names (10_state.md R14). -/
def regOf (v : BitVec 4) : Reg := v.toFin

/-- Class 8, by its low nibble (R55). -/
def decodeClass8 (x y : Reg) (n : BitVec 4) : Option Instr :=
  match n with
  | 0x0#4 => some (.ldReg x y)
  | 0x1#4 => some (.orReg x y)
  | 0x2#4 => some (.andReg x y)
  | 0x3#4 => some (.xorReg x y)
  | 0x4#4 => some (.addReg x y)
  | 0x5#4 => some (.subReg x y)
  | 0x6#4 => some (.shr x y)
  | 0x7#4 => some (.subn x y)
  | 0xE#4 => some (.shl x y)
  | _ => none

/-- Class F, by its low byte (R57). -/
def decodeClassF (x : Reg) (kk : Byte) : Option Instr :=
  match kk with
  | 0x07#8 => some (.ldVxDt x)
  | 0x0A#8 => some (.ldVxK x)
  | 0x15#8 => some (.ldDtVx x)
  | 0x18#8 => some (.ldStVx x)
  | 0x1E#8 => some (.addI x)
  | 0x29#8 => some (.ldF x)
  | 0x33#8 => some (.ldB x)
  | 0x55#8 => some (.ldMemVx x)
  | 0x65#8 => some (.ldVxMem x)
  | _ => none

/-- The opcode map of R52, by class nibble, with R53 to R57 for the words it leaves out. -/
def decodeFields (f : Fields) : Option Instr :=
  match f.c with
  | 0x0#4 =>
    match f.nnn with
    | 0x000#12 => some .nop
    | 0x0E0#12 => some .cls
    | 0x0EE#12 => some .ret
    | _ => none
  | 0x1#4 => some (.jp f.nnn)
  | 0x2#4 => some (.call f.nnn)
  | 0x3#4 => some (.seByte (regOf f.x) f.kk)
  | 0x4#4 => some (.sneByte (regOf f.x) f.kk)
  | 0x5#4 => if f.n = 0 then some (.seReg (regOf f.x) (regOf f.y)) else none
  | 0x6#4 => some (.ldByte (regOf f.x) f.kk)
  | 0x7#4 => some (.addByte (regOf f.x) f.kk)
  | 0x8#4 => decodeClass8 (regOf f.x) (regOf f.y) f.n
  | 0x9#4 => if f.n = 0 then some (.sneReg (regOf f.x) (regOf f.y)) else none
  | 0xA#4 => some (.ldI f.nnn)
  | 0xB#4 => some (.jpV0 f.nnn)
  | 0xC#4 => some (.rnd (regOf f.x) f.kk)
  | 0xD#4 => some (.drw (regOf f.x) (regOf f.y) f.n.toFin)
  | 0xE#4 =>
    match f.kk with
    | 0x9E#8 => some (.skp (regOf f.x))
    | 0xA1#8 => some (.sknp (regOf f.x))
    | _ => none
  | 0xF#4 => decodeClassF (regOf f.x) f.kk
  | _ => none

/-- Decode one word against all 35 rows of R52; the extras' parameter is `recognise`'s. -/
def decodeWord (w : Word) : Except Reject Instr :=
  match decodeFields (fieldsOf w) with
  | some i => .ok i
  | none => .error (.unrecognised w)

/-- Decode the front of a byte sequence; every instruction is two bytes, big-endian (R45, 20_memory.md R37). -/
def decodeBytes : List Byte → Except Reject (Instr × List Byte)
  | hi :: lo :: rest =>
    match decodeWord (Word.ofBytes hi lo) with
    | .ok i => .ok (i, rest)
    | .error r => .error r
  | _ => .error .truncated

/-- Dispatch: the row that the word matches, restricted to the recognised rows of the parameters
(R49, R58, R59). -/
def recognise (p : Config.Params) (w : Word) : Option Instr :=
  match decodeWord w with
  | .ok i => if i.wellFormed p then some i else none
  | .error _ => none

/-- The word whose bits are `w` in the opcode table's numbering, `nbits` of them given. -/
def tableWord (nbits w : Nat) : Word := BitVec.ofNat 16 (w % 2 ^ nbits)

/-- The bytes of a word as memory holds it: the high byte at the lower address (20_memory.md R37). -/
def wordBytes (w : Word) : List Byte := [w.hiByte, w.loByte]

/-- The host's question about a table row: the instruction the decoder reads from these bits. -/
def decodeTableWord (nbits w : Nat) : Option Instr :=
  match decodeBytes (wordBytes (tableWord nbits w)) with
  | .ok (i, _) => some i
  | .error _ => none

/-! ## The encoder -/

/-- The nibble that names a register. -/
def nibbleOf (r : Fin 16) : BitVec 4 := BitVec.ofFin r

/-- Format `A`: cccc aaaa aaaa aaaa (R47). -/
def formatA (c : BitVec 4) (nnn : Addr) : Word := c ++ nnn

/-- Formats `XK` and `X`: cccc xxxx kkkk kkkk (R47). -/
def formatXK (c : BitVec 4) (x : Reg) (kk : Byte) : Word := (c ++ nibbleOf x : BitVec 8) ++ kk

/-- Formats `XY` and `XYN`: cccc xxxx yyyy nnnn (R47). -/
def formatXYN (c : BitVec 4) (x y : Reg) (n : BitVec 4) : Word :=
  (c ++ nibbleOf x : BitVec 8) ++ (nibbleOf y ++ n : BitVec 8)

/-- The word of an instruction: the patterns of R52 in the formats of R47. -/
def encode : Instr → Word
  | .nop => 0x0000
  | .cls => 0x00E0
  | .ret => 0x00EE
  | .jp nnn => formatA 0x1 nnn
  | .call nnn => formatA 0x2 nnn
  | .seByte x kk => formatXK 0x3 x kk
  | .sneByte x kk => formatXK 0x4 x kk
  | .seReg x y => formatXYN 0x5 x y 0x0
  | .ldByte x kk => formatXK 0x6 x kk
  | .addByte x kk => formatXK 0x7 x kk
  | .ldReg x y => formatXYN 0x8 x y 0x0
  | .orReg x y => formatXYN 0x8 x y 0x1
  | .andReg x y => formatXYN 0x8 x y 0x2
  | .xorReg x y => formatXYN 0x8 x y 0x3
  | .addReg x y => formatXYN 0x8 x y 0x4
  | .subReg x y => formatXYN 0x8 x y 0x5
  | .shr x y => formatXYN 0x8 x y 0x6
  | .subn x y => formatXYN 0x8 x y 0x7
  | .shl x y => formatXYN 0x8 x y 0xE
  | .sneReg x y => formatXYN 0x9 x y 0x0
  | .ldI nnn => formatA 0xA nnn
  | .jpV0 nnn => formatA 0xB nnn
  | .rnd x kk => formatXK 0xC x kk
  | .drw x y n => formatXYN 0xD x y (nibbleOf n)
  | .skp x => formatXK 0xE x 0x9E
  | .sknp x => formatXK 0xE x 0xA1
  | .ldVxDt x => formatXK 0xF x 0x07
  | .ldVxK x => formatXK 0xF x 0x0A
  | .ldDtVx x => formatXK 0xF x 0x15
  | .ldStVx x => formatXK 0xF x 0x18
  | .addI x => formatXK 0xF x 0x1E
  | .ldF x => formatXK 0xF x 0x29
  | .ldB x => formatXK 0xF x 0x33
  | .ldMemVx x => formatXK 0xF x 0x55
  | .ldVxMem x => formatXK 0xF x 0x65

/-! ## The opcode table's rows -/

/-- A row of spec/opcode_table.json: a word is in it when `w & mask = fixed` (30_encoding.md R49, R60). -/
structure Row where
  mnemonic : String
  fixed    : Word
  mask     : Word
deriving DecidableEq, Repr

/-- The word is one of the row's. -/
def Row.has (r : Row) (w : Word) : Bool := w &&& r.mask == r.fixed

/-- The row of each instruction: mnemonic, match and mask as spec/opcode_table.json has them. -/
def Instr.row : Instr → Row
  | .nop => ⟨"NOP", 0x0000, 0xFFFF⟩
  | .cls => ⟨"CLS", 0x00E0, 0xFFFF⟩
  | .ret => ⟨"RET", 0x00EE, 0xFFFF⟩
  | .jp _ => ⟨"JP_addr", 0x1000, 0xF000⟩
  | .call _ => ⟨"CALL_addr", 0x2000, 0xF000⟩
  | .seByte _ _ => ⟨"SE_Vx__byte", 0x3000, 0xF000⟩
  | .sneByte _ _ => ⟨"SNE_Vx__byte", 0x4000, 0xF000⟩
  | .seReg _ _ => ⟨"SE_Vx__Vy", 0x5000, 0xF00F⟩
  | .ldByte _ _ => ⟨"LD_Vx__byte", 0x6000, 0xF000⟩
  | .addByte _ _ => ⟨"ADD_Vx__byte", 0x7000, 0xF000⟩
  | .ldReg _ _ => ⟨"LD_Vx__Vy", 0x8000, 0xF00F⟩
  | .orReg _ _ => ⟨"OR_Vx__Vy", 0x8001, 0xF00F⟩
  | .andReg _ _ => ⟨"AND_Vx__Vy", 0x8002, 0xF00F⟩
  | .xorReg _ _ => ⟨"XOR_Vx__Vy", 0x8003, 0xF00F⟩
  | .addReg _ _ => ⟨"ADD_Vx__Vy", 0x8004, 0xF00F⟩
  | .subReg _ _ => ⟨"SUB_Vx__Vy", 0x8005, 0xF00F⟩
  | .shr _ _ => ⟨"SHR_Vx____Vy", 0x8006, 0xF00F⟩
  | .subn _ _ => ⟨"SUBN_Vx__Vy", 0x8007, 0xF00F⟩
  | .shl _ _ => ⟨"SHL_Vx____Vy", 0x800E, 0xF00F⟩
  | .sneReg _ _ => ⟨"SNE_Vx__Vy", 0x9000, 0xF00F⟩
  | .ldI _ => ⟨"LD_I__addr", 0xA000, 0xF000⟩
  | .jpV0 _ => ⟨"JP_V0__addr", 0xB000, 0xF000⟩
  | .rnd _ _ => ⟨"RND_Vx__byte", 0xC000, 0xF000⟩
  | .drw _ _ _ => ⟨"DRW_Vx__Vy__nibble", 0xD000, 0xF000⟩
  | .skp _ => ⟨"SKP_Vx", 0xE09E, 0xF0FF⟩
  | .sknp _ => ⟨"SKNP_Vx", 0xE0A1, 0xF0FF⟩
  | .ldVxDt _ => ⟨"LD_Vx__DT", 0xF007, 0xF0FF⟩
  | .ldVxK _ => ⟨"LD_Vx__K", 0xF00A, 0xF0FF⟩
  | .ldDtVx _ => ⟨"LD_DT__Vx", 0xF015, 0xF0FF⟩
  | .ldStVx _ => ⟨"LD_ST__Vx", 0xF018, 0xF0FF⟩
  | .addI _ => ⟨"ADD_I__Vx", 0xF01E, 0xF0FF⟩
  | .ldF _ => ⟨"LD_F__Vx", 0xF029, 0xF0FF⟩
  | .ldB _ => ⟨"LD_B__Vx", 0xF033, 0xF0FF⟩
  | .ldMemVx _ => ⟨"LD__I___Vx", 0xF055, 0xF0FF⟩
  | .ldVxMem _ => ⟨"LD_Vx___I", 0xF065, 0xF0FF⟩

/-- The 35 rows of spec/opcode_table.json, in its order (R52). -/
def opcodeTable : List Row :=
  let basic : List Instr := [.nop, .cls, .ret, .jp 0, .call 0, .seByte 0 0, .sneByte 0 0, .seReg 0 0]
  let loads : List Instr := [.ldByte 0 0, .addByte 0 0, .ldReg 0 0, .orReg 0 0, .andReg 0 0, .xorReg 0 0]
  let arith : List Instr := [.addReg 0 0, .subReg 0 0, .shr 0 0, .subn 0 0, .shl 0 0, .sneReg 0 0]
  let index : List Instr := [.ldI 0, .jpV0 0, .rnd 0 0, .drw 0 0 0, .skp 0, .sknp 0]
  let system : List Instr :=
    [.ldVxDt 0, .ldVxK 0, .ldDtVx 0, .ldStVx 0, .addI 0, .ldF 0, .ldB 0, .ldMemVx 0, .ldVxMem 0]
  (basic ++ loads ++ arith ++ index ++ system).map Instr.row

end Sys2Proof
end

