-- ==== Sys2Proof/Machine/State.lean ====
section
/-! DEFINITION. The state record of 10_state.md R13, the errors of 60_exceptions.md R108, and the construction state of
70_reset_and_hazards.md R137. -/

namespace Sys2Proof.Machine

/-- Memory: the cells that differ from what they held at construction, by rising address (`Memory.wf`, Ops.lean). -/
abbrev Memory := List Host.Cell

/-- The framebuffer: 32 rows (y) of 64 pixels (x), `true` = set (10_state.md R28). -/
abbrev Framebuffer := Vector (Vector Bool 64) 32

/-- The state record of R13, with the model's own `draws` and `params` (log 2, 4). -/
structure State where
  /-- V0 to VF (R14); VF is also the flag (R18). -/
  regs   : Vector Byte 16
  /-- I (R20). -/
  idx    : Word
  /-- PC (R21). -/
  pc     : Word
  /-- STACK[0..15] (R24). -/
  stack  : Vector Word 16
  /-- SP, an integer in [0,16]: the number of entries in use (R24). -/
  sp     : Fin 17
  /-- DT (R26). -/
  dt     : Byte
  /-- ST (R26). -/
  st     : Byte
  /-- FB (R28). -/
  fb     : Framebuffer
  /-- MEM (R30). -/
  mem    : Memory
  /-- KEY[0..15], `true` = pressed (R29). -/
  keys   : Vector Bool 16
  /-- The model's own: how many random bytes have been drawn (log 4). -/
  draws  : Nat
  /-- The model's own: the parameters of 00_scope.md R7, which no step changes (log 2). -/
  params : Config.Params
deriving DecidableEq, Repr

/-- The errors of R108, each with the `info` of R114. A fault is terminal (R116); the state is then the one before the
failing cycle (R115), so the outcome carries none (log 11). -/
inductive Fault where
  /-- Code 1 (R109). Raised by a fetch at PC ≥ 0xFFF, a data access above 0xFFF, a store into the font region under
  `P_FONT_WRITE = FAULT`, a key code or a font digit above 0xF; `info` is the offending value.
  Safe: the spec raises it too, and where it does so by its own decision (D4, D5, D11) the model stops. -/
  | outOfBounds (info : Nat)
  /-- Code 2 (R110). Raised by `2nnn` at SP = 16; `info` is the instruction's address. Safe: the spec raises it too. -/
  | stackOverflow (info : Word)
  /-- Code 3 (R111). Raised by `00EE` at SP = 0; `info` is the instruction's address. Safe: the spec raises it too. -/
  | stackUnderflow (info : Word)
  /-- Code 4 (R112). Raised by dispatch; `info` is the word. Safe: the spec raises it too. -/
  | unimplementedOpcode (info : Word)
  /-- Code 5 (R113). Raised only by the host's program load; `info` is the image's length. Safe: the spec raises it too. -/
  | programTooLarge (info : Nat)
deriving DecidableEq, Repr

/-- Why the model has no meaning for an instruction. -/
inductive Refusal where
  /-- Raised by a `Dispatch.lean` arm without a meaning (none is left). Safe: the model stops. -/
  | notModelled (mnemonic : String)
deriving DecidableEq, Repr

/-- `Construct` with parameters `p`: PC = 0x200 and the font from the source, the rest zero by the spec's decision D1
(R137, R129; log 1). Memory lists nothing: it reads as `FONT` and zeros (R138, log 25). -/
def State.construct (p : Config.Params) : State where
  regs   := Vector.replicate 16 0
  idx    := 0
  pc     := 0x200
  stack  := Vector.replicate 16 0
  sp     := 0
  dt     := 0
  st     := 0
  fb     := Vector.replicate 32 (Vector.replicate 64 false)
  mem    := []
  keys   := Vector.replicate 16 false
  draws  := 0
  params := p

/-- The machine right after construction with the default parameters (R137, R7). -/
def State.reset : State := State.construct Config.defaultParams

end Sys2Proof.Machine
end

