-- ==== Sys2Proof/Machine/Flags.lean ====
section
/-! DEFINITION. Every result-and-flag computation of the spec: exact integer arithmetic, narrowed at the end. The flag is
always VF (10_state.md R18); a flag value is 0 or 1. -/

namespace Sys2Proof.Machine

/-- A flag's value in VF: 1 or 0. -/
def flagByte (b : Bool) : Byte := if b then 1 else 0

/-- Sum modulo 256, and the carry: the true sum is above 255 (44_arith_flags.md R80 to R82). -/
def addWithCarry (a b : Byte) : Byte × Bool :=
  let s := a.toNat + b.toNat
  (BitVec.ofNat 8 s, decide (255 < s))

/-- Difference modulo 256, and no-borrow: the minuend is at least the subtrahend (R80, R83, R84; equality D13, log 16). -/
def subNoBorrow (m s : Byte) : Byte × Bool :=
  (BitVec.ofInt 8 ((m.toNat : Int) - (s.toNat : Int)), decide (s.toNat ≤ m.toNat))

/-- Logical shift right by one, and bit 0 of the value before the shift (45_shifts.md R86). -/
def shiftRight (v : Byte) : Byte × Bool := (v >>> 1, v.getLsbD 0)

/-- Shift left by one modulo 256, and bit 7 of the value before the shift (45_shifts.md R87). -/
def shiftLeft (v : Byte) : Byte × Bool := (v <<< 1, v.getLsbD 7)

end Sys2Proof.Machine
end

