-- ==== Sys2Proof/Machine/Ops.lean ====
section
/-! DEFINITION. The named operations over registers, memory, stack, framebuffer and keypad, and raising an error
(10_state.md, 20_memory.md, 60_exceptions.md R115). -/

namespace Sys2Proof.Machine

/-! ## Registers -/

/-- `V[x]` (00_scope.md R10). -/
def readReg (s : State) (x : Reg) : Byte := s.regs[x]

/-- `V[x] <- v`. No register is hardwired (10_state.md R14). -/
def writeReg (s : State) (x : Reg) (v : Byte) : State := { s with regs := s.regs.set x v }

/-- VF, register 0xF (R18). -/
def flagReg : Reg := 15

/-- The result to Vx first and the flag to VF second, so that with x = 0xF VF ends as the flag (R19, R80, R85). -/
def writeResultFlag (s : State) (x : Reg) (r : Byte × Bool) : State :=
  writeReg (writeReg s x r.1) flagReg (flagByte r.2)

/-- `I <- a`. -/
def setIdx (s : State) (a : Word) : State := { s with idx := a }

/-- `PC <- a`. -/
def setPc (s : State) (a : Word) : State := { s with pc := a }

/-- The cycle's advance, before dispatch (30_encoding.md R51). -/
def advance (s : State) : State := setPc s (s.pc + 2)

/-- The address of the executing instruction: PC holds it plus 2 (R51). -/
def instrAddr (s : State) : Word := s.pc - 2

/-- The skip mechanism: 2 more when the condition holds (42_skips.md R68). -/
def skipIf (c : Bool) (s : State) : State := if c then setPc s (s.pc + 2) else s

/-- `DT <- v`. -/
def setDt (s : State) (v : Byte) : State := { s with dt := v }

/-- `ST <- v`. -/
def setSt (s : State) (v : Byte) : State := { s with st := v }

/-- A fresh draw and the state after it: the free value and the counter's advance (43_load_bitwise.md R79, log 4). -/
def draw (s : State) : Byte × State := (Config.freeByte s.draws, { s with draws := s.draws + 1 })

/-! ## Errors -/

/-- `raise E(info)`: the one way an error leaves the CORE. It ends the cycle with no change of state, so the outcome
carries none (00_scope.md R10; 60_exceptions.md R115, R116, R119). -/
def raise (f : Fault) : Host.Outcome State Fault Refusal := .fault f

/-- A checked operation's outcome: its state, or the error it raises. -/
def finish : Except Fault State → Host.Outcome State Fault Refusal
  | .ok s => .next s
  | .error f => raise f

/-! ## Memory -/

/-- What an address reads as when nothing is listed for it: the construction contents, `FONT` at 0x000 to 0x04F and zero
elsewhere (10_state.md R30, 70_reset_and_hazards.md R137; log 25). -/
def Memory.unlisted (font : Config.Font) (a : Nat) : Byte :=
  if h : a < 80 then font[a] else 0

/-- The listed byte at an address. -/
def Memory.lookup : Memory → Nat → Option Byte
  | [], _ => none
  | (b, v) :: m, a => if a = b then some v else Memory.lookup m a

/-- `MEM[a]`. -/
def Memory.byteAt (font : Config.Font) (m : Memory) (a : Nat) : Byte :=
  (Memory.lookup m a).getD (Memory.unlisted font a)

/-- List a byte at its place in the rising order. -/
def Memory.put : Memory → Nat → Byte → Memory
  | [], a, v => [(a, v)]
  | (b, u) :: m, a, v =>
    if a = b then (a, v) :: m
    else if a < b then (a, v) :: (b, u) :: m
    else (b, u) :: Memory.put m a v

/-- Take an address off the list. -/
def Memory.erase (m : Memory) (a : Nat) : Memory := m.filter (fun c => c.1 ≠ a)

/-- `MEM[a] <- v`, keeping the canonical form: a byte equal to what the address reads as unlisted is not listed. -/
def Memory.set (font : Config.Font) (m : Memory) (a : Nat) (v : Byte) : Memory :=
  if v = Memory.unlisted font a then Memory.erase m a else Memory.put m a v

/-- `MEM[a + i] <- bs[i]` for each i, in increasing order. -/
def Memory.setBytes (font : Config.Font) (m : Memory) : Nat → List Byte → Memory
  | _, [] => m
  | a, b :: bs => Memory.setBytes font (Memory.set font m a b) (a + 1) bs

/-- The canonical form: addresses strictly rising, inside the 4096-byte space, none equal to what it reads as unlisted. -/
abbrev Memory.wf (font : Config.Font) (m : Memory) : Prop :=
  m.Pairwise (fun c d => c.1 < d.1) ∧ ∀ c ∈ m, c.1 < 4096 ∧ c.2 ≠ Memory.unlisted font c.1

/-- `MEM[a]` of the machine. -/
def byteAt (s : State) (a : Nat) : Byte := Memory.byteAt s.params.font s.mem a

/-- `n` bytes from an address on. -/
def bytesAt (s : State) (a n : Nat) : List Byte := (List.range n).map (fun k => byteAt s (a + k))

/-- Memory with these bytes from an address on. -/
def putBytes (s : State) (a : Nat) (bs : List Byte) : State :=
  { s with mem := Memory.setBytes s.params.font s.mem a bs }

/-- The check of a load: the address is inside memory, never reduced (20_memory.md R33). -/
def loadFault (a : Nat) : Option Fault := if 0xFFF < a then some (.outOfBounds a) else none

/-- The checks of a store, in R34's order: inside memory, then the font region under `P_FONT_WRITE = FAULT`. -/
def storeFault (p : Config.Params) (a : Nat) : Option Fault :=
  if 0xFFF < a then some (.outOfBounds a)
  else if a ≤ 0x04F ∧ p.fontWrite = .fault then some (.outOfBounds a)
  else none

/-- The first error among `n` addresses from `a` on, in increasing order (48_bcd_block_transfer.md R96, R117). -/
def firstFault (check : Nat → Option Fault) : Nat → Nat → Option Fault
  | _, 0 => none
  | a, n + 1 =>
    match check a with
    | some f => some f
    | none => firstFault check (a + 1) n

/-- `MemRead(a)` (20_memory.md R33). -/
def memRead (s : State) (a : Nat) : Except Fault Byte :=
  match loadFault a with
  | some f => .error f
  | none => .ok (byteAt s a)

/-- `MemRead` of `n` addresses from `a` on, all checked before any access (R39). -/
def loadBlock (s : State) (a n : Nat) : Except Fault (List Byte) :=
  match firstFault loadFault a n with
  | some f => .error f
  | none => .ok (bytesAt s a n)

/-- `MemWrite` of the bytes from `a` on, all checked before any access (R34, R39). -/
def storeBlock (s : State) (a : Nat) (bs : List Byte) : Except Fault State :=
  match firstFault (storeFault s.params) a bs.length with
  | some f => .error f
  | none => .ok (putBytes s a bs)

/-- `MemWrite(a, v)` (20_memory.md R34). -/
def memWrite (s : State) (a : Nat) (v : Byte) : Except Fault State := storeBlock s a [v]

/-- Fetch: two bytes, big-endian, each bounds-checked in order (30_encoding.md R49, R50; 20_memory.md R37). -/
def fetch (s : State) : Except Fault Word :=
  match memRead s s.pc.toNat with
  | .error f => .error f
  | .ok b0 =>
    match memRead s (s.pc.toNat + 1) with
    | .error f => .error f
    | .ok b1 => .ok (Word.ofBytes b0 b1)

/-! ## Call stack -/

/-- `push(v)` (10_state.md R25): `StackOverflow` at SP = 16. -/
def push (s : State) (v : Word) : Except Fault State :=
  if h : s.sp.val < 16 then
    .ok { s with stack := s.stack.set s.sp.val v, sp := ⟨s.sp.val + 1, by omega⟩ }
  else .error (.stackOverflow (instrAddr s))

/-- `pop()` (R25): `StackUnderflow` at SP = 0. The popped entry keeps its value. -/
def pop (s : State) : Except Fault (Word × State) :=
  if h : s.sp.val = 0 then .error (.stackUnderflow (instrAddr s))
  else
    have := s.sp.isLt
    .ok (s.stack[s.sp.val - 1], { s with sp := ⟨s.sp.val - 1, by omega⟩ })

/-! ## Framebuffer -/

/-- `FB[y][x]` (10_state.md R28). -/
def Framebuffer.pixel (fb : Framebuffer) (y : Fin 32) (x : Fin 64) : Bool := fb[y][x]

/-- `FB[y][x] <- FB[y][x] ^ 1`. -/
def Framebuffer.toggle (fb : Framebuffer) (y : Fin 32) (x : Fin 64) : Framebuffer :=
  fb.set y (fb[y].set x (!fb[y][x]))

/-- Every pixel unset. -/
def Framebuffer.clear : Framebuffer := Vector.replicate 32 (Vector.replicate 64 false)

/-- Replace the framebuffer. -/
def setFb (s : State) (fb : Framebuffer) : State := { s with fb := fb }

/-! ## Keypad -/

/-- "The lowest-numbered currently-pressed key, or none" (60_exceptions.md R131, 49_timer_key.md R107). -/
def lowestPressed (keys : Vector Bool 16) : Option Reg := (List.finRange 16).find? (fun k => keys[k])

end Sys2Proof.Machine
end

