-- ==== Sys2Proof/Machine/Operands.lean ====
section
/-! DEFINITION. The operand forms: zero-extended immediates, effective addresses, the shift source, hex-digit operands. -/

namespace Sys2Proof.Machine

/-- `zext_16(nnn)` (30_encoding.md R46). -/
def addrOperand (nnn : Addr) : Word := nnn.setWidth 16

/-- The base of the addresses I + k, an exact integer (20_memory.md R39). -/
def idxBase (s : State) : Nat := s.idx.toNat

/-- The register that a shift reads: Vx or Vy, by `P_SHIFT_SRC` (45_shifts.md R85, D7). -/
def shiftSource (p : Config.Params) (x y : Reg) : Reg :=
  match p.shiftSrc with
  | .x => x
  | .y => y

/-- The value of Vx as a key code or a font digit: above 0xF it raises `OutOfBounds(Vx)`
(49_timer_key.md R104, 46_index_offset_jump.md R91, D11). -/
def hexDigitOperand (s : State) (x : Reg) : Except Fault (Fin 16) :=
  if h : (readReg s x).toNat < 16 then .ok ⟨(readReg s x).toNat, h⟩
  else .error (.outOfBounds (readReg s x).toNat)

/-- The I update that ends `Fx55` and `Fx65`: none under `KEEP`, `I <- (I + x + 1) mod 65536` under `ADVANCE`
(48_bcd_block_transfer.md R96, R100, D8). -/
def endBlock (x : Reg) (s : State) : State :=
  match s.params.ldstIndex with
  | .keep => s
  | .advance => setIdx s (s.idx + BitVec.ofNat 16 (x.val + 1))

/-- The values of V0 to Vx. -/
def regsUpTo (s : State) (x : Reg) : List Byte := s.regs.toList.take (x.val + 1)

/-- `V[k + i] <- bs[i]` for each i. -/
def writeRegsFrom : Nat → List Byte → Vector Byte 16 → Vector Byte 16
  | _, [], v => v
  | k, b :: bs, v => writeRegsFrom (k + 1) bs (v.setIfInBounds k b)

/-- The hundreds, tens and ones digits of a byte (48_bcd_block_transfer.md R97). -/
def bcdDigits (v : Byte) : List Byte :=
  [BitVec.ofNat 8 (v.toNat / 100), BitVec.ofNat 8 (v.toNat / 10 % 10), BitVec.ofNat 8 (v.toNat % 10)]

end Sys2Proof.Machine
end

