-- ==== Sys2Proof/Machine/Arith.lean ====
section
/-! DEFINITION. 44_arith_flags.md: addition with carry and subtraction with no-borrow (R80). -/

namespace Sys2Proof.Machine

/-- `7xkk` (R81); it writes VF, unlike the conventional instruction (the source's rule stands, 93_implementation_defined.md). -/
def execAddByte (x : Reg) (kk : Byte) (s : State) : Host.Outcome State Fault Refusal :=
  .next (writeResultFlag s x (addWithCarry (readReg s x) kk))

/-- `8xy4` (R82). -/
def execAddReg (x y : Reg) (s : State) : Host.Outcome State Fault Refusal :=
  .next (writeResultFlag s x (addWithCarry (readReg s x) (readReg s y)))

/-- `8xy5`: Vx - Vy (R83). -/
def execSubReg (x y : Reg) (s : State) : Host.Outcome State Fault Refusal :=
  .next (writeResultFlag s x (subNoBorrow (readReg s x) (readReg s y)))

/-- `8xy7`: Vy - Vx (R84). -/
def execSubn (x y : Reg) (s : State) : Host.Outcome State Fault Refusal :=
  .next (writeResultFlag s x (subNoBorrow (readReg s y) (readReg s x)))

end Sys2Proof.Machine
end

