-- ==== Sys2Proof/Machine/BlockTransfer.lean ====
section
/-! DEFINITION. 48_bcd_block_transfer.md: BCD, register store and register load; all addresses are checked before any
access (R96). Store and load are separate definitions (C5). -/

namespace Sys2Proof.Machine

/-- `Fx33` (R97); it never changes I (R96). -/
def execLdB (x : Reg) (s : State) : Host.Outcome State Fault Refusal :=
  finish (storeBlock s (idxBase s) (bcdDigits (readReg s x)))

/-- `Fx55` (R98, R100). -/
def execLdMemVx (x : Reg) (s : State) : Host.Outcome State Fault Refusal :=
  match storeBlock s (idxBase s) (regsUpTo s x) with
  | .ok s' => .next (endBlock x s')
  | .error f => raise f

/-- `Fx65` (R99, R100). -/
def execLdVxMem (x : Reg) (s : State) : Host.Outcome State Fault Refusal :=
  match loadBlock s (idxBase s) (x.val + 1) with
  | .ok bs => .next (endBlock x { s with regs := writeRegsFrom 0 bs s.regs })
  | .error f => raise f

end Sys2Proof.Machine
end

