-- ==== Sys2Proof/Machine/ClearReturn.lean ====
section
/-! DEFINITION. 40_noop_clear_return.md: NOP, CLS, RET. In every meaning PC already holds a + 2 (R51). -/

namespace Sys2Proof.Machine

/-- `0000` (R63). -/
def execNop (s : State) : Host.Outcome State Fault Refusal := .next s

/-- `00E0` (R64). -/
def execCls (s : State) : Host.Outcome State Fault Refusal := .next (setFb s Framebuffer.clear)

/-- `00EE` (R65). -/
def execRet (s : State) : Host.Outcome State Fault Refusal :=
  match pop s with
  | .ok (a, s') => .next (setPc s' a)
  | .error f => raise f

end Sys2Proof.Machine
end

