-- ==== Sys2Proof/Machine/Display.lean ====
section
/-! DEFINITION. 47_display.md: drawing a sprite by XOR, with wrap-around and the collision flag. -/

namespace Sys2Proof.Machine

/-- A framebuffer being drawn on, and whether a pixel has gone from set to unset (R95). -/
abbrev Canvas := Framebuffer × Bool

/-- The pixel of sprite row `r`, column `c`: `((Vx + c) mod 64, (Vy + r) mod 32)` (R94). Toggle it; a collision if it
was set (R93, R95). -/
def drawPixel (px py r c : Nat) (k : Canvas) : Canvas :=
  let x := Fin.ofNat 64 (px + c)
  let y := Fin.ofNat 32 (py + r)
  (k.1.toggle y x, k.2 || k.1.pixel y x)

/-- One sprite row: bit 7 is column 0; a 0 bit leaves its pixel alone (R92). -/
def drawRow (b : Byte) (px py r : Nat) (k : Canvas) : Canvas :=
  (List.range 8).foldl (fun k c => if b.getLsbD (7 - c) then drawPixel px py r c k else k) k

/-- The sprite's rows from row `r` on (R93). -/
def drawRows (px py : Nat) : Nat → List Byte → Canvas → Canvas
  | _, [], k => k
  | r, b :: bs, k => drawRows px py (r + 1) bs (drawRow b px py r k)

/-- `Dxyn` (R93): coordinates read before VF is written, every row address checked before any pixel changes, VF the
collision flag over the whole sprite. -/
def execDrw (x y : Reg) (n : Fin 16) (s : State) : Host.Outcome State Fault Refusal :=
  match loadBlock s (idxBase s) n.val with
  | .error f => raise f
  | .ok rows =>
    let k := drawRows (readReg s x).toNat (readReg s y).toNat 0 rows (s.fb, false)
    .next (writeReg (setFb s k.1) flagReg (flagByte k.2))

end Sys2Proof.Machine
end

