-- ==== Sys2Proof/Machine/IndexJump.lean ====
section
/-! DEFINITION. 46_index_offset_jump.md: the index register and the offset jump. -/

namespace Sys2Proof.Machine

/-- `Annn` (R88). -/
def execLdI (nnn : Addr) (s : State) : Host.Outcome State Fault Refusal := .next (setIdx s (addrOperand nnn))

/-- `Bnnn` (R89): an exact sum, no mask; always V0 (D2, log 10). -/
def execJpV0 (nnn : Addr) (s : State) : Host.Outcome State Fault Refusal :=
  .next (setPc s (addrOperand nnn + (readReg s 0).setWidth 16))

/-- `Fx1E` (R90): modulo 65536, VF unchanged (D6, log 13). -/
def execAddI (x : Reg) (s : State) : Host.Outcome State Fault Refusal :=
  .next (setIdx s (s.idx + (readReg s x).setWidth 16))

/-- `Fx29` (R91): FONT_BASE + 5 d; recognised only under `P_EXTRAS = ON` (dispatch, R58). -/
def execLdF (x : Reg) (s : State) : Host.Outcome State Fault Refusal :=
  match hexDigitOperand s x with
  | .ok d => .next (setIdx s (BitVec.ofNat 16 (0x000 + 5 * d.val)))
  | .error f => raise f

end Sys2Proof.Machine
end

