-- ==== Sys2Proof/Machine/JumpCall.lean ====
section
/-! DEFINITION. 41_jump_call.md: JP and CALL. -/

namespace Sys2Proof.Machine

/-- `1nnn` (R66). -/
def execJp (nnn : Addr) (s : State) : Host.Outcome State Fault Refusal := .next (setPc s (addrOperand nnn))

/-- `2nnn` (R67): push the advanced PC, then jump. -/
def execCall (nnn : Addr) (s : State) : Host.Outcome State Fault Refusal :=
  match push s s.pc with
  | .ok s' => .next (setPc s' (addrOperand nnn))
  | .error f => raise f

end Sys2Proof.Machine
end

