-- ==== Sys2Proof/Machine/LoadBitwise.lean ====
section
/-! DEFINITION. 43_load_bitwise.md: loads and bitwise operations; none writes VF but as its named destination (R73). -/

namespace Sys2Proof.Machine

/-- `6xkk` (R74); recognised only under `P_EXTRAS = ON` (dispatch, R58). -/
def execLdByte (x : Reg) (kk : Byte) (s : State) : Host.Outcome State Fault Refusal := .next (writeReg s x kk)

/-- `8xy0` (R75). -/
def execLdReg (x y : Reg) (s : State) : Host.Outcome State Fault Refusal := .next (writeReg s x (readReg s y))

/-- `8xy1` (R76). -/
def execOrReg (x y : Reg) (s : State) : Host.Outcome State Fault Refusal :=
  .next (writeReg s x (readReg s x ||| readReg s y))

/-- `8xy2` (R77). -/
def execAndReg (x y : Reg) (s : State) : Host.Outcome State Fault Refusal :=
  .next (writeReg s x (readReg s x &&& readReg s y))

/-- `8xy3` (R78). -/
def execXorReg (x y : Reg) (s : State) : Host.Outcome State Fault Refusal :=
  .next (writeReg s x (readReg s x ^^^ readReg s y))

/-- `Cxkk` with the draw `r`: `V[x] <- r & kk` (R79). -/
def rndWith (r : Byte) (x : Reg) (kk : Byte) (s : State) : State := writeReg s x (r &&& kk)

/-- `Cxkk` (R79): a fresh draw per execution, a free value (D10, log 4); recognised only under `P_EXTRAS = ON` (R58). -/
def execRnd (x : Reg) (kk : Byte) (s : State) : Host.Outcome State Fault Refusal :=
  .next (rndWith (draw s).1 x kk (draw s).2)

end Sys2Proof.Machine
end

