-- ==== Sys2Proof/Machine/Shifts.lean ====
section
/-! DEFINITION. 45_shifts.md: shifts by one bit, VF the bit shifted out of the value before the shift (R85, C4). -/

namespace Sys2Proof.Machine

/-- `8xy6` (R86). -/
def execShr (x y : Reg) (s : State) : Host.Outcome State Fault Refusal :=
  .next (writeResultFlag s x (shiftRight (readReg s (shiftSource s.params x y))))

/-- `8xyE` (R87). -/
def execShl (x y : Reg) (s : State) : Host.Outcome State Fault Refusal :=
  .next (writeResultFlag s x (shiftLeft (readReg s (shiftSource s.params x y))))

end Sys2Proof.Machine
end

