-- ==== Sys2Proof/Machine/Skips.lean ====
section
/-! DEFINITION. 42_skips.md: the four conditional skips on registers (R68). -/

namespace Sys2Proof.Machine

/-- `3xkk` (R69). -/
def execSeByte (x : Reg) (kk : Byte) (s : State) : Host.Outcome State Fault Refusal :=
  .next (skipIf (readReg s x == kk) s)

/-- `4xkk` (R70). -/
def execSneByte (x : Reg) (kk : Byte) (s : State) : Host.Outcome State Fault Refusal :=
  .next (skipIf (readReg s x != kk) s)

/-- `5xy0` (R71). -/
def execSeReg (x y : Reg) (s : State) : Host.Outcome State Fault Refusal :=
  .next (skipIf (readReg s x == readReg s y) s)

/-- `9xy0` (R72). -/
def execSneReg (x y : Reg) (s : State) : Host.Outcome State Fault Refusal :=
  .next (skipIf (readReg s x != readReg s y) s)

end Sys2Proof.Machine
end

