-- ==== Sys2Proof/Machine/TimerKey.lean ====
section
/-! DEFINITION. 49_timer_key.md: timers and keys. No instruction decrements a timer (10_state.md R27). -/

namespace Sys2Proof.Machine

/-- `Fx07` (R101). -/
def execLdVxDt (x : Reg) (s : State) : Host.Outcome State Fault Refusal := .next (writeReg s x s.dt)

/-- `Fx15` (R102). -/
def execLdDtVx (x : Reg) (s : State) : Host.Outcome State Fault Refusal := .next (setDt s (readReg s x))

/-- `Fx18` (R103). -/
def execLdStVx (x : Reg) (s : State) : Host.Outcome State Fault Refusal := .next (setSt s (readReg s x))

/-- `Ex9E` (R105). -/
def execSkp (x : Reg) (s : State) : Host.Outcome State Fault Refusal :=
  match hexDigitOperand s x with
  | .ok k => .next (skipIf s.keys[k] s)
  | .error f => raise f

/-- `ExA1` (R106). -/
def execSknp (x : Reg) (s : State) : Host.Outcome State Fault Refusal :=
  match hexDigitOperand s x with
  | .ok k => .next (skipIf (!s.keys[k]) s)
  | .error f => raise f

/-- `Fx0A` (R107): the lowest pressed key, or back to this instruction (level-sensitive, D12, log 15). -/
def execLdVxK (x : Reg) (s : State) : Host.Outcome State Fault Refusal :=
  match lowestPressed s.keys with
  | some k => .next (writeReg s x (BitVec.ofNat 8 k.val))
  | none => .next (setPc s (s.pc - 2))

end Sys2Proof.Machine
end

