-- ==== Sys2Proof/Machine/Step.lean ====
section
/-! DEFINITION. One cycle: fetch, advance, decode, dispatch (30_encoding.md R49); and placing a word where the next cycle
fetches. -/

namespace Sys2Proof.Machine

/-- One `Cycle` (R49). An error changes no state, the advance included (60_exceptions.md R115). -/
def step (s : State) : Host.Outcome State Fault Refusal :=
  match fetch s with
  | .error f => raise f
  | .ok w =>
    match recognise s.params w with
    | none => raise (.unimplementedOpcode w)
    | some i => exec i (advance s)

/-- `s` with the instruction's two bytes stored where the next cycle fetches, at PC and PC + 1, high byte first
(20_memory.md R37; log 27). Where no fetch succeeds (PC ≥ 0xFFF) there is nowhere to store them, and nothing changes. -/
def State.withFetchWord (s : State) (nbits w : Nat) : State :=
  if s.pc.toNat < 0xFFF then putBytes s s.pc.toNat (wordBytes (tableWord nbits w)) else s

end Sys2Proof.Machine
end

