-- ==== Sys2Proof/Machine/HostInterface.lean ====
section
/-! DEFINITION. The host operations of 60_exceptions.md R127 to R135 and 70_reset_and_hazards.md R138 to R141. Each is
atomic and runs between cycles (20_memory.md R43). -/

namespace Sys2Proof.Machine

/-! ## The error record -/

/-- The numeric codes of R108 (the spec's own labels, D18, log 23). -/
def Fault.code : Fault → Nat
  | .outOfBounds _ => 1
  | .stackOverflow _ => 2
  | .stackUnderflow _ => 3
  | .unimplementedOpcode _ => 4
  | .programTooLarge _ => 5

/-- The names of R108. -/
def Fault.name : Fault → String
  | .outOfBounds _ => "OutOfBounds"
  | .stackOverflow _ => "StackOverflow"
  | .stackUnderflow _ => "StackUnderflow"
  | .unimplementedOpcode _ => "UnimplementedOpcode"
  | .programTooLarge _ => "ProgramTooLarge"

/-- The `info` of R114. -/
def Fault.info : Fault → Nat
  | .outOfBounds a => a
  | .stackOverflow a => a.toNat
  | .stackUnderflow a => a.toNat
  | .unimplementedOpcode w => w.toNat
  | .programTooLarge n => n

/-- `Err(code, name, pc, word, info)` (R114). `pc` is absent for a program load, which runs no instruction (log 23). -/
structure ErrorRecord where
  code : Nat
  name : String
  pc   : Option Word
  word : Option Word
  info : Nat
deriving DecidableEq, Repr

/-- The fetched word, absent for a fetch error (R114). -/
def fetchedWord (s : State) : Option Word :=
  match fetch s with
  | .ok w => some w
  | .error _ => none

/-- The record of a failed cycle: PC at its start, and the fetched word (R114). -/
def cycleRecord (s : State) (f : Fault) : ErrorRecord :=
  { code := f.code, name := f.name, pc := some s.pc, word := fetchedWord s, info := f.info }

/-- The record of a failed program load (R113, R140). -/
def loadRecord (f : Fault) : ErrorRecord :=
  { code := f.code, name := f.name, pc := none, word := none, info := f.info }

/-! ## Snapshots -/

/-- A snapshot: the fields of R13 without `KEY`, as numbers of no stated width, so that a record the host offers can be
wrong (R134; its layout is the model's, log 20). The framebuffer is row-major, index y·64 + x. -/
structure Snapshot where
  regs  : List Nat
  idx   : Nat
  pc    : Nat
  stack : List Nat
  sp    : Nat
  dt    : Nat
  st    : Nat
  fb    : List Bool
  mem   : List Nat
deriving DecidableEq, Repr

/-- The 2048 pixels in row-major order (R132, 10_state.md R28). -/
def pixelsOf (fb : Framebuffer) : List Bool := fb.toList.flatMap Vector.toList

/-- A list of `n` numbers, each of `w` bits. -/
def fits (n w : Nat) (l : List Nat) : Bool := l.length = n && l.all (fun v => v < 2 ^ w)

/-- Every field has its width, and SP is at most 16 (R134). -/
def Snapshot.valid (r : Snapshot) : Bool :=
  fits 16 8 r.regs && fits 1 16 [r.idx] && fits 1 16 [r.pc] && fits 16 16 r.stack && r.sp ≤ 16 &&
    fits 1 8 [r.dt] && fits 1 8 [r.st] && r.fb.length = 2048 && fits 4096 8 r.mem

/-- A vector from a list's entries. -/
def vectorOf {α : Type} (n : Nat) (z : α) (l : List α) : Vector α n := Vector.ofFn (fun k => l.getD k.val z)

/-- The fields of the record in place of the machine's (R134); `KEY`, the parameters and the draw counter stay. -/
def putSnapshot (s : State) (r : Snapshot) : State :=
  { s with
    regs  := vectorOf 16 0 (r.regs.map (BitVec.ofNat 8))
    idx   := BitVec.ofNat 16 r.idx
    pc    := BitVec.ofNat 16 r.pc
    stack := vectorOf 16 0 (r.stack.map (BitVec.ofNat 16))
    sp    := Fin.ofNat 17 r.sp
    dt    := BitVec.ofNat 8 r.dt
    st    := BitVec.ofNat 8 r.st
    fb    := Vector.ofFn (fun y => Vector.ofFn (fun x => r.fb.getD (64 * y.val + x.val) false))
    mem   := Memory.setBytes s.params.font [] 0 (r.mem.map (BitVec.ofNat 8)) }

/-! ## The operations -/

/-- What a host operation returns (R127). -/
inductive HostResult where
  | ok
  | err (r : ErrorRecord)
  | rejected
  | key (k : Option Reg)
  | pixels (l : List Bool)
  | record (r : Snapshot)
  | sound (b : Bool)
  /-- The model's own: a cycle whose instruction has no meaning. No instruction is left without one. -/
  | unmodelled
deriving DecidableEq, Repr

/-- `Reset`: construction again, with the machine's parameters (R129, 70_reset_and_hazards.md R139, D21). The draw counter
goes on, so that later draws stay fresh (log 5). -/
def resetMachine (s : State) : State := { State.construct s.params with draws := s.draws }

/-- `LoadProgram` (70_reset_and_hazards.md R140): fail if longer than 0xE00 bytes, else write from 0x200 on, with no font
check and nothing else changed. -/
def loadProgram (bs : List Byte) (s : State) : State × HostResult :=
  if 0xE00 < bs.length then (s, .err (loadRecord (.programTooLarge bs.length)))
  else (putBytes s 0x200 bs, .ok)

/-- `Cycle` (R128): one step; on an error the state is unchanged (R115). -/
def cycle (s : State) : State × HostResult :=
  match step s with
  | .next s' => (s', .ok)
  | .fault f => (s, .err (cycleRecord s f))
  | .refused _ => (s, .unmodelled)

/-- `KEY[k] <- b`, rejected for a code above 0xF (R130, D23). -/
def putKey (k : Nat) (b : Bool) (s : State) : State × HostResult :=
  if h : k < 16 then ({ s with keys := s.keys.set k b }, .ok) else (s, .rejected)

/-- `TimerTick` (R133, D14): each timer down by one, saturating at zero. -/
def timerTick (s : State) : State :=
  { s with dt := if s.dt = 0 then 0 else s.dt - 1, st := if s.st = 0 then 0 else s.st - 1 }

/-- `Snapshot` (R134). -/
def snapshotOf (s : State) : Snapshot where
  regs  := s.regs.toList.map BitVec.toNat
  idx   := s.idx.toNat
  pc    := s.pc.toNat
  stack := s.stack.toList.map BitVec.toNat
  sp    := s.sp.val
  dt    := s.dt.toNat
  st    := s.st.toNat
  fb    := pixelsOf s.fb
  mem   := (bytesAt s 0 4096).map BitVec.toNat

/-- `Restore(r)` (R134, D24). -/
def restore (r : Snapshot) (s : State) : State × HostResult :=
  if r.valid then (putSnapshot s r, .ok) else (s, .rejected)

/-- `SoundActive`: ST is not 0 (R122, D26). -/
def soundActive (s : State) : Bool := s.st != 0

/-- The host operations of R127 on an existing machine. -/
inductive HostOp where
  | reset
  | loadProgram (bs : List Byte)
  | cycle
  | keySet (k : Nat)
  | keyClear (k : Nat)
  | keyQuery
  | framebufferRead
  | timerTick
  | snapshot
  | restore (r : Snapshot)
  | soundActive
deriving DecidableEq, Repr

/-- One host operation: the state after it and its result (R127). -/
def hostOp (op : HostOp) (s : State) : State × HostResult :=
  match op with
  | .reset => (resetMachine s, .ok)
  | .loadProgram bs => Machine.loadProgram bs s
  | .cycle => Machine.cycle s
  | .keySet k => putKey k true s
  | .keyClear k => putKey k false s
  | .keyQuery => (s, .key (lowestPressed s.keys))
  | .framebufferRead => (s, .pixels (pixelsOf s.fb))
  | .timerTick => (Machine.timerTick s, .ok)
  | .snapshot => (s, .record (snapshotOf s))
  | .restore r => Machine.restore r s
  | .soundActive => (s, .sound (Machine.soundActive s))

end Sys2Proof.Machine
end

