-- ==== Sys2Proof/Safety.lean ====
section
/-! DEFINITION. What claims are stated in: the end of a run (70_reset_and_hazards.md R147), host scripts (60_exceptions.md
R135), what a step leaves unchanged, and the invariants. -/

namespace Sys2Proof.Machine

/-! ## Runs -/

/-- "Halted at a": the word at PC is a jump to PC itself (R147 (b)). -/
def haltedAt (s : State) : Bool :=
  match fetchedWord s with
  | some w =>
    match decodeWord w with
    | .ok (.jp nnn) => addrOperand nnn == s.pc
    | _ => false
  | none => false

/-- How a run ends (R147). -/
inductive RunEnd where
  | error (r : ErrorRecord)
  | halted (a : Word)
  | bound
  /-- The model's own: an instruction without a meaning. None is left. -/
  | unmodelled
deriving DecidableEq, Repr

/-- Cycles with no host operation between, to the first of R147's ends, at most `k` of them. DESIGN CHOICE (log 33): a jump
to itself at PC is tested before the bound and uses no cycle of it, so at the bound itself the end reported is `halted`,
while an error needs a cycle of its own. -/
def runCycles : Nat → State → State × RunEnd
  | k, s =>
    if haltedAt s then (s, .halted s.pc)
    else
      match k with
      | 0 => (s, .bound)
      | k + 1 =>
        match step s with
        | .next s' => runCycles k s'
        | .fault f => (s, .error (cycleRecord s f))
        | .refused _ => (s, .unmodelled)

/-- A host script: its operations in order, to its end or to the first failed cycle, which is terminal (R116, R135).
DESIGN CHOICE (log 32): a failed program load (error 5) is not terminal; it changes nothing, the script goes on after it, and
its record, which `hostOp` returns, is not kept here. -/
def runScript : List HostOp → State → State × Option ErrorRecord
  | [], s => (s, none)
  | op :: ops, s =>
    match op, hostOp op s with
    | .cycle, (s', .err r) => (s', some r)
    | _, (s', _) => runScript ops s'

/-- Instructions executed one after another with no fetch between. -/
def execAll : List Instr → State → Host.Outcome State Fault Refusal
  | [], s => .next s
  | i :: is, s =>
    match exec i s with
    | .next s' => execAll is s'
    | .fault f => .fault f
    | .refused r => .refused r

/-! ## Frames -/

/-- The parts of the state (10_state.md R13, and the model's own two). -/
inductive Part where
  | regs | idx | pc | stack | sp | dt | st | fb | mem | keys | draws | params
deriving DecidableEq, Repr

/-- `t` agrees with `s` on a part; on memory, through the read of every address. -/
def Part.same (p : Part) (s t : State) : Prop :=
  match p with
  | .regs => ∀ r : Reg, readReg t r = readReg s r
  | .idx => t.idx = s.idx
  | .pc => t.pc = s.pc
  | .stack => t.stack = s.stack
  | .sp => t.sp = s.sp
  | .dt => t.dt = s.dt
  | .st => t.st = s.st
  | .fb => ∀ (y : Fin 32) (x : Fin 64), t.fb.pixel y x = s.fb.pixel y x
  | .mem => ∀ a : Nat, memRead t a = memRead s a
  | .keys => t.keys = s.keys
  | .draws => t.draws = s.draws
  | .params => t.params = s.params

/-- From `s` to `t` nothing changes but, perhaps, these parts. -/
def ChangesOnly (ps : List Part) (s t : State) : Prop := ∀ p : Part, p ∉ ps → p.same s t

/-- Every register but these reads as before. -/
def OtherRegsSame (rs : List Reg) (s t : State) : Prop := ∀ r : Reg, r ∉ rs → readReg t r = readReg s r

/-- The registers an instruction may write: its named destinations, and VF where it has a flag rule
(10_state.md R15, R18). -/
def writesReg (i : Instr) (r : Reg) : Bool :=
  match i with
  | .ldByte x _ | .rnd x _ | .ldReg x _ | .orReg x _ | .andReg x _ | .xorReg x _ | .ldVxDt x | .ldVxK x => r == x
  | .addByte x _ | .addReg x _ | .subReg x _ | .subn x _ | .shr x _ | .shl x _ => r == x || r == 15
  | .drw _ _ _ => r == 15
  | .ldVxMem x => decide (r ≤ x)
  | .nop | .cls | .ret | .jp _ | .call _ | .seByte _ _ | .sneByte _ _ | .seReg _ _ | .sneReg _ _ | .ldI _ | .jpV0 _
  | .skp _ | .sknp _ | .ldDtVx _ | .ldStVx _ | .addI _ | .ldF _ | .ldB _ | .ldMemVx _ => false

/-! ## Sprites -/

/-- The sprite with these rows, drawn at (px, py), has a 1 bit on pixel (x, y): bit 7 - c of row r, at
`((px + c) mod 64, (py + r) mod 32)` (47_display.md R92, R94). -/
def SpriteCovers (rows : List Byte) (px py : Nat) (y : Fin 32) (x : Fin 64) : Prop :=
  ∃ (r : Nat) (_ : r < rows.length) (c : Nat), c < 8 ∧ rows[r].getLsbD (7 - c) = true ∧
    x.val = (px + c) % 64 ∧ y.val = (py + r) % 32

/-! ## Invariants -/

/-- Memory is in its canonical form (log 25). -/
def MemoryCanonical (s : State) : Prop := Memory.wf s.params.font s.mem

/-- PC is at most 0x10FE and every stack entry at most 0x1000 (10_state.md R22, 41_jump_call.md R67). -/
def PcBounded (s : State) : Prop := s.pc.toNat ≤ 0x10FE ∧ ∀ k : Fin 16, s.stack[k].toNat ≤ 0x1000

/-- The font region reads as the font table (10_state.md R30). -/
def FontIntact (s : State) : Prop := ∀ k : Fin 80, byteAt s k = s.params.font[k]

end Sys2Proof.Machine
end

