-- ==== Sys2Proof/Certificates/Slice0/Obligations.lean ====
section
/-! DEFINITION. The statements for the provers. In every statement about `exec`, `s.pc` is the advanced PC, a + 2 for the
instruction at a (30_encoding.md R51). -/

open Sys2Proof Sys2Proof.Machine

/-! ## Encoding -/

/-- Every instruction's word decodes to it, with every operand at every value, and dispatch recognises it exactly when the
parameters admit it (R46, R47, R52; P_EXTRAS is the spec's decision D9, log 9). -/
def Obligations.DecodeEncodeRoundTrip : Prop :=
  ∀ (p : Config.Params) (i : Instr), decodeWord (encode i) = .ok i ∧
    recognise p (encode i) = if i.isExtra ∧ p.extras = .off then none else some i

/-- Each word has one meaning: a word that decodes is the encoding of what it decodes to (R46, R52). -/
def Obligations.EncodeOfDecodedWord : Prop :=
  ∀ (w : Word) (i : Instr), decodeWord w = .ok i → encode i = w

/-- The decoder is the opcode table: a word has a row's fixed bits exactly when it decodes to an instruction of that row
(R49, R52); so the rows are disjoint (R60, which the spec derives). -/
def Obligations.DecoderFollowsTable : Prop :=
  ∀ (w : Word) (r : Row), r ∈ opcodeTable → (r.has w = true ↔ ∃ i, decodeWord w = .ok i ∧ i.row = r)

/-- Classes 0, 8 and E: exactly these words are recognised, under every setting (R53, R55, R56). -/
def Obligations.ReservedWordsUnrecognised : Prop :=
  ∀ (p : Config.Params) (w : Word),
    (w.toNat / 4096 = 0 → ((recognise p w).isSome ↔ w = 0x0000 ∨ w = 0x00E0 ∨ w = 0x00EE)) ∧
    (w.toNat / 4096 = 8 → ((recognise p w).isSome ↔ w.toNat % 16 ≤ 7 ∨ w.toNat % 16 = 0xE)) ∧
    (w.toNat / 4096 = 0xE → ((recognise p w).isSome ↔ w.toNat % 256 = 0x9E ∨ w.toNat % 256 = 0xA1))

/-- The words of 95_test_vectors.md 3.1, and one word of each other family, decode to what they stand for. -/
def Obligations.SampleWordsDecode : Prop :=
  decodeWord 0xD12F = .ok (.drw 1 2 15) ∧ decodeWord 0x0000 = .ok .nop ∧ decodeWord 0x8AB4 = .ok (.addReg 0xA 0xB) ∧
  decodeWord 0xF265 = .ok (.ldVxMem 2) ∧ decodeWord 0xFFFF = .error (.unrecognised 0xFFFF) ∧
  decodeWord 0xE0A1 = .ok (.sknp 0) ∧ decodeWord 0x2300 = .ok (.call 0x300) ∧ decodeWord 0x3342 = .ok (.seByte 3 0x42) ∧
  decodeWord 0x6A2F = .ok (.ldByte 0xA 0x2F) ∧ decodeWord 0x845E = .ok (.shl 4 5) ∧ decodeWord 0xA2F0 = .ok (.ldI 0x2F0)

/-! ## The cycle -/

/-- A step runs the decoded instruction: when the two bytes at PC are a recognised instruction, the step is that
instruction on the state with PC advanced by 2 (R37, R49, R51). -/
def Obligations.StepRunsDecodedInstruction : Prop :=
  ∀ (s : State) (i : Instr), s.pc.toNat < 0xFFF →
    decodeBytes [byteAt s s.pc.toNat, byteAt s (s.pc.toNat + 1)] = .ok (i, []) → i.wellFormed s.params = true →
    step s = exec i { s with pc := s.pc + 2 }

/-- A fetch at PC ≥ 0xFFF raises OutOfBounds with the first byte address outside memory (R50). -/
def Obligations.FetchOutsideMemoryFaults : Prop :=
  ∀ s : State, (0xFFF < s.pc.toNat → step s = .fault (.outOfBounds s.pc.toNat)) ∧
    (s.pc.toNat = 0xFFF → step s = .fault (.outOfBounds 0x1000))

/-- UnimplementedOpcode is raised for exactly the words that are not recognised, with the word as its info (R112). -/
def Obligations.UnrecognisedWordFaults : Prop :=
  ∀ (s : State) (v : Word), s.pc.toNat < 0xFFF →
    (step s = .fault (.unimplementedOpcode v) ↔
      Word.ofBytes (byteAt s s.pc.toNat) (byteAt s (s.pc.toNat + 1)) = v ∧ recognise s.params v = none)

/-- Every cycle runs an instruction or raises one of the errors of codes 1 to 4: the model refuses nothing, and no cycle
raises ProgramTooLarge (R108, R113). -/
def Obligations.NoCycleRefuses : Prop :=
  ∀ s : State, (∀ r, step s ≠ .refused r) ∧ ∀ n, step s ≠ .fault (.programTooLarge n)

/-! ## No-op, clear, return, jump, call -/

/-- The all-zero word is a no-op: it only advances PC (R63). -/
def Obligations.NopOnlyAdvances : Prop :=
  ∀ s : State, exec .nop s = .next s ∧
    (s.pc.toNat < 0xFFF → byteAt s s.pc.toNat = 0 → byteAt s (s.pc.toNat + 1) = 0 →
      step s = .next { s with pc := s.pc + 2 })

/-- 00E0 zeroes every framebuffer pixel and changes nothing else (R64). -/
def Obligations.ClsClearsEveryPixel : Prop :=
  ∀ s : State, ∃ t, exec .cls s = .next t ∧ (∀ y x, t.fb.pixel y x = false) ∧ ChangesOnly [.fb] s t

/-- 00EE pops the call stack into PC, or raises StackUnderflow at the instruction's address (R65). -/
def Obligations.RetPopsReturnAddress : Prop :=
  ∀ s : State,
    (∀ k : Fin 16, s.sp.val = k.val + 1 →
      ∃ t, exec .ret s = .next t ∧ t.pc = s.stack[k] ∧ t.sp.val = k.val ∧ ChangesOnly [.pc, .sp] s t) ∧
    (s.sp = 0 → exec .ret s = .fault (.stackUnderflow (s.pc - 2)))

/-- 2nnn pushes the advanced PC and jumps, or raises StackOverflow at the instruction's address (R67). -/
def Obligations.CallPushesAdvancedPc : Prop :=
  ∀ (s : State) (nnn : Addr),
    (∀ k : Fin 16, s.sp.val = k.val →
      ∃ t, exec (.call nnn) s = .next t ∧ t.stack[k] = s.pc ∧ (∀ j : Fin 16, j ≠ k → t.stack[j] = s.stack[j]) ∧
        t.sp.val = k.val + 1 ∧ t.pc.toNat = nnn.toNat ∧ ChangesOnly [.pc, .sp, .stack] s t) ∧
    (s.sp = 16 → exec (.call nnn) s = .fault (.stackOverflow (s.pc - 2)))

/-- Balanced calls and returns (95_test_vectors.md W1; R65, R67): calls nested as deep as the stack has room, then as many
returns, bring SP and PC back, and change only the stack's entries above SP. -/
def Obligations.NestedCallsReturn : Prop :=
  ∀ (s : State) (targets : List Addr), s.sp.val + targets.length ≤ 16 →
    ∃ t, execAll (targets.map .call ++ List.replicate targets.length .ret) s = .next t ∧
      t.sp = s.sp ∧ t.pc = s.pc ∧ (∀ j : Fin 16, j.val < s.sp.val → t.stack[j] = s.stack[j]) ∧
      ChangesOnly [.stack] s t

/-- 1nnn sets PC to nnn and changes nothing else (R66). -/
def Obligations.JumpSetsPc : Prop :=
  ∀ (s : State) (nnn : Addr), ∃ t, exec (.jp nnn) s = .next t ∧ t.pc.toNat = nnn.toNat ∧ ChangesOnly [.pc] s t

/-- Bnnn sets PC to the exact sum of nnn and V0, whatever x is (R89; that nothing is masked is the spec's decision D2,
log 10). -/
def Obligations.OffsetJumpAddsV0 : Prop :=
  ∀ (s : State) (nnn : Addr),
    ∃ t, exec (.jpV0 nnn) s = .next t ∧ t.pc.toNat = nnn.toNat + (readReg s 0).toNat ∧ ChangesOnly [.pc] s t

/-! ## Skips -/

/-- 3xkk skips 2 more bytes exactly when Vx = kk, 4xkk exactly when not, and neither changes anything else (R69, R70). -/
def Obligations.SkipsOnByte : Prop :=
  ∀ (s : State) (x : Reg) (kk : Byte), ∃ t u, exec (.seByte x kk) s = .next t ∧ exec (.sneByte x kk) s = .next u ∧
    t.pc = (if readReg s x = kk then s.pc + 2 else s.pc) ∧ u.pc = (if readReg s x = kk then s.pc else s.pc + 2) ∧
    ChangesOnly [.pc] s t ∧ ChangesOnly [.pc] s u

/-- 5xy0 skips 2 more bytes exactly when Vx = Vy, 9xy0 exactly when not, and neither changes anything else (R71, R72). -/
def Obligations.SkipsOnRegisters : Prop :=
  ∀ (s : State) (x y : Reg), ∃ t u, exec (.seReg x y) s = .next t ∧ exec (.sneReg x y) s = .next u ∧
    t.pc = (if readReg s x = readReg s y then s.pc + 2 else s.pc) ∧
    u.pc = (if readReg s x = readReg s y then s.pc else s.pc + 2) ∧
    ChangesOnly [.pc] s t ∧ ChangesOnly [.pc] s u

/-! ## Loads, bitwise operations, arithmetic, shifts -/

/-- 8xy0 to 8xy3 give Vx the copy, OR, AND and XOR, bit by bit, and write no other register, VF included
(R75 to R78). -/
def Obligations.CopyAndBitwiseResults : Prop :=
  ∀ (s : State) (x y : Reg), ∃ t₀ t₁ t₂ t₃,
    exec (.ldReg x y) s = .next t₀ ∧ exec (.orReg x y) s = .next t₁ ∧
    exec (.andReg x y) s = .next t₂ ∧ exec (.xorReg x y) s = .next t₃ ∧
    readReg t₀ x = readReg s y ∧
    (∀ b < 8, (readReg t₁ x).getLsbD b = ((readReg s x).getLsbD b || (readReg s y).getLsbD b)) ∧
    (∀ b < 8, (readReg t₂ x).getLsbD b = ((readReg s x).getLsbD b && (readReg s y).getLsbD b)) ∧
    (∀ b < 8, (readReg t₃ x).getLsbD b = ((readReg s x).getLsbD b ^^ (readReg s y).getLsbD b)) ∧
    ∀ t ∈ [t₀, t₁, t₂, t₃], OtherRegsSame [x] s t ∧ ChangesOnly [.regs] s t

/-- 6xkk loads kk into Vx; Cxkk loads the draw masked by kk, whatever the draw is, and the next draw is another (R74 and
R79, which the spec adds by its decisions D9 and D10, log 4 and 9). Nothing is said of the draw's value. -/
def Obligations.ExtraByteLoads : Prop :=
  ∀ (s : State) (x : Reg) (kk : Byte), ∃ t u, exec (.ldByte x kk) s = .next t ∧ exec (.rnd x kk) s = .next u ∧
    readReg t x = kk ∧ OtherRegsSame [x] s t ∧ ChangesOnly [.regs] s t ∧
    readReg u x = Config.freeByte s.draws &&& kk ∧ u.draws = s.draws + 1 ∧
    OtherRegsSame [x] s u ∧ ChangesOnly [.regs, .draws] s u

/-- 7xkk and 8xy4: Vx gets the sum modulo 256 and VF the carry, also when VF is the destination or a source
(R81, R82). -/
def Obligations.AdditionSetsCarry : Prop :=
  ∀ (s : State) (x y : Reg) (kk : Byte), ∃ t u, exec (.addByte x kk) s = .next t ∧ exec (.addReg x y) s = .next u ∧
    (x ≠ 15 → (readReg t x).toNat = ((readReg s x).toNat + kk.toNat) % 256) ∧
    (x ≠ 15 → (readReg u x).toNat = ((readReg s x).toNat + (readReg s y).toNat) % 256) ∧
    readReg t 15 = (if (readReg s x).toNat + kk.toNat > 255 then 1 else 0) ∧
    readReg u 15 = (if (readReg s x).toNat + (readReg s y).toNat > 255 then 1 else 0) ∧
    ∀ v ∈ [t, u], OtherRegsSame [x, 15] s v ∧ ChangesOnly [.regs] s v

/-- 8xy5 and 8xy7: Vx gets the difference modulo 256 and VF is 1 exactly when nothing is borrowed, also when VF is the
destination or a source (R83, R84; that equality does not borrow is the spec's decision D13, log 16). -/
def Obligations.SubtractionSetsNoBorrow : Prop :=
  ∀ (s : State) (x y : Reg), ∃ t u, exec (.subReg x y) s = .next t ∧ exec (.subn x y) s = .next u ∧
    (x ≠ 15 → (readReg t x).toNat = (256 + (readReg s x).toNat - (readReg s y).toNat) % 256) ∧
    (x ≠ 15 → (readReg u x).toNat = (256 + (readReg s y).toNat - (readReg s x).toNat) % 256) ∧
    readReg t 15 = (if (readReg s x).toNat ≥ (readReg s y).toNat then 1 else 0) ∧
    readReg u 15 = (if (readReg s y).toNat ≥ (readReg s x).toNat then 1 else 0) ∧
    ∀ v ∈ [t, u], OtherRegsSame [x, 15] s v ∧ ChangesOnly [.regs] s v

/-- 8xy6 and 8xyE: Vx gets the source halved or doubled modulo 256 and VF the bit shifted out of the source before the
shift (R86, R87); the source is Vx or Vy by P_SHIFT_SRC, the spec's decision D7 (log 7). -/
def Obligations.ShiftsSetShiftedOutBit : Prop :=
  ∀ (s : State) (x y src : Reg), (s.params.shiftSrc = .x → src = x) → (s.params.shiftSrc = .y → src = y) →
    ∃ t u, exec (.shr x y) s = .next t ∧ exec (.shl x y) s = .next u ∧
      (x ≠ 15 → (readReg t x).toNat = (readReg s src).toNat / 2) ∧
      (x ≠ 15 → (readReg u x).toNat = 2 * (readReg s src).toNat % 256) ∧
      readReg t 15 = (if (readReg s src).toNat % 2 = 1 then 1 else 0) ∧
      readReg u 15 = (if (readReg s src).toNat ≥ 128 then 1 else 0) ∧
      ∀ v ∈ [t, u], OtherRegsSame [x, 15] s v ∧ ChangesOnly [.regs] s v

/-! ## Index register -/

/-- Annn sets I to nnn and changes nothing else (R88). -/
def Obligations.LoadIndexAddress : Prop :=
  ∀ (s : State) (nnn : Addr), ∃ t, exec (.ldI nnn) s = .next t ∧ t.idx.toNat = nnn.toNat ∧ ChangesOnly [.idx] s t

/-- Fx1E adds Vx to I modulo 65536 and changes nothing else (R90; the width and VF unchanged are the spec's decision D6,
log 13). -/
def Obligations.AddIndexWraps : Prop :=
  ∀ (s : State) (x : Reg), ∃ t, exec (.addI x) s = .next t ∧
    t.idx.toNat = (s.idx.toNat + (readReg s x).toNat) % 65536 ∧ ChangesOnly [.idx] s t

/-- Fx29 points I at glyph Vx, 5 bytes each from 0x000, and raises OutOfBounds for a digit above 0xF (R91, which the spec
adds by its decisions D9 and D11, log 9 and 14). -/
def Obligations.FontGlyphAddress : Prop :=
  ∀ (s : State) (x : Reg),
    ((readReg s x).toNat ≤ 0xF →
      ∃ t, exec (.ldF x) s = .next t ∧ t.idx.toNat = 5 * (readReg s x).toNat ∧ ChangesOnly [.idx] s t) ∧
    (0xF < (readReg s x).toNat → exec (.ldF x) s = .fault (.outOfBounds (readReg s x).toNat))

/-! ## Display -/

/-- Dxyn toggles exactly the pixels that a 1 bit of the sprite covers, at wrapped coordinates, and sets VF to whether one
of them was set over the whole sprite, else 0 (R92 to R95). That n = 0 draws nothing and cannot fault, whatever I is, is the
spec's own inference (R93, marked derived there). -/
def Obligations.DrawTogglesCoveredPixels : Prop :=
  ∀ (s : State) (x y : Reg) (n : Fin 16), n = 0 ∨ s.idx.toNat + n.val ≤ 0x1000 →
    ∃ t, exec (.drw x y n) s = .next t ∧
      (∀ py px, t.fb.pixel py px ≠ s.fb.pixel py px ↔
        SpriteCovers (bytesAt s s.idx.toNat n.val) (readReg s x).toNat (readReg s y).toNat py px) ∧
      (readReg t 15 = 1 ↔ ∃ py px, s.fb.pixel py px = true ∧
        SpriteCovers (bytesAt s s.idx.toNat n.val) (readReg s x).toNat (readReg s y).toNat py px) ∧
      (readReg t 15 = 0 ∨ readReg t 15 = 1) ∧
      OtherRegsSame [15] s t ∧ ChangesOnly [.fb, .regs] s t

/-- A sprite that reaches past 0xFFF raises OutOfBounds with its first address there (R93; the check before any effect is
the spec's decision D5, log 12). -/
def Obligations.DrawPastMemoryFaults : Prop :=
  ∀ (s : State) (x y : Reg) (n : Fin 16), n ≠ 0 → 0x1000 < s.idx.toNat + n.val →
    exec (.drw x y n) s = .fault (.outOfBounds (max s.idx.toNat 0x1000))

/-- Drawing the same sprite a second time at the same place gives back every pixel, and the second VF is 1 exactly when the
first draw set a pixel (R95 and 95_test_vectors.md W6). Between the two draws anything may change but the framebuffer, memory,
I and the two coordinates (a coordinate held in VF has to be put back, since the first draw overwrites it). That n = 0 cannot
fault, whatever I is, is the spec's own inference (R93, marked derived there). -/
def Obligations.DrawTwiceRestoresPixels : Prop :=
  ∀ (s : State) (x y : Reg) (n : Fin 16), n = 0 ∨ s.idx.toNat + n.val ≤ 0x1000 →
    ∃ t, exec (.drw x y n) s = .next t ∧
      ∀ t' : State, t'.fb = t.fb → t'.mem = t.mem → t'.params = t.params → t'.idx = s.idx →
        readReg t' x = readReg s x → readReg t' y = readReg s y →
        ∃ u, exec (.drw x y n) t' = .next u ∧ (∀ py px, u.fb.pixel py px = s.fb.pixel py px) ∧
          (readReg u 15 = 1 ↔ ∃ py px, t.fb.pixel py px = true ∧ s.fb.pixel py px = false)

/-- After a clear, a draw leaves exactly the covered pixels set, and no collision (95_test_vectors.md W5; R64, R93 to
R95; that n = 0 cannot fault is the spec's own inference in R93). -/
def Obligations.ClearThenDrawShowsSprite : Prop :=
  ∀ (s : State) (x y : Reg) (n : Fin 16), n = 0 ∨ s.idx.toNat + n.val ≤ 0x1000 →
    ∃ t, execAll [.cls, .drw x y n] s = .next t ∧ readReg t 15 = 0 ∧
      ∀ py px, t.fb.pixel py px = true ↔
        SpriteCovers (bytesAt s s.idx.toNat n.val) (readReg s x).toNat (readReg s y).toNat py px

/-! ## BCD and block transfer -/

/-- Fx33 writes the hundreds, tens and ones digits of Vx to I, I+1 and I+2 and changes no other byte (R97); under
P_FONT_WRITE = FAULT (the spec's decision D4, log 6) for I above the font region. -/
def Obligations.BcdWritesDigits : Prop :=
  ∀ (s : State) (x : Reg), s.idx.toNat + 2 ≤ 0xFFF → (s.params.fontWrite = .fault → 0x04F < s.idx.toNat) →
    ∃ t h d o, exec (.ldB x) s = .next t ∧ memRead t s.idx.toNat = .ok h ∧ memRead t (s.idx.toNat + 1) = .ok d ∧
      memRead t (s.idx.toNat + 2) = .ok o ∧
      (readReg s x).toNat = 100 * h.toNat + 10 * d.toNat + o.toNat ∧ d.toNat ≤ 9 ∧ o.toNat ≤ 9 ∧
      (∀ a, a < s.idx.toNat ∨ s.idx.toNat + 2 < a → memRead t a = memRead s a) ∧ ChangesOnly [.mem] s t

/-- Fx55 copies V0 to Vx to memory from I on and changes no other byte (R98); I is kept, or advanced by x + 1 modulo 65536
under P_LDST_INDEX = ADVANCE (the spec's decision D8, log 8); under P_FONT_WRITE = FAULT (D4, log 6) for I above the font
region. -/
def Obligations.RegisterStoreCopiesOut : Prop :=
  ∀ (s : State) (x : Reg), s.idx.toNat + x.val ≤ 0xFFF → (s.params.fontWrite = .fault → 0x04F < s.idx.toNat) →
    ∃ t, exec (.ldMemVx x) s = .next t ∧
      (∀ r : Reg, r ≤ x → memRead t (s.idx.toNat + r.val) = .ok (readReg s r)) ∧
      (∀ a, a < s.idx.toNat ∨ s.idx.toNat + x.val < a → memRead t a = memRead s a) ∧
      (s.params.ldstIndex = .keep → t.idx = s.idx) ∧
      (s.params.ldstIndex = .advance → t.idx.toNat = (s.idx.toNat + x.val + 1) % 65536) ∧
      ChangesOnly [.mem, .idx] s t

/-- Fx65 copies memory from I on to V0 to Vx and changes no other register (R99); I as in Fx55 (D8, log 8). -/
def Obligations.RegisterLoadCopiesIn : Prop :=
  ∀ (s : State) (x : Reg), s.idx.toNat + x.val ≤ 0xFFF →
    ∃ t, exec (.ldVxMem x) s = .next t ∧
      (∀ r : Reg, r ≤ x → memRead s (s.idx.toNat + r.val) = .ok (readReg t r)) ∧
      (∀ r : Reg, x < r → readReg t r = readReg s r) ∧
      (s.params.ldstIndex = .keep → t.idx = s.idx) ∧
      (s.params.ldstIndex = .advance → t.idx.toNat = (s.idx.toNat + x.val + 1) % 65536) ∧
      ChangesOnly [.regs, .idx] s t

/-- Fx33, Fx55 and Fx65 raise OutOfBounds with their first failing address: a store's own base in the font region under
P_FONT_WRITE = FAULT, else the first address above 0xFFF (R96; D4, D5 and D19, log 6, 12 and 24). -/
def Obligations.BlockFaultsAtFirstAddress : Prop :=
  ∀ (s : State) (x : Reg),
    (s.params.fontWrite = .fault → s.idx.toNat ≤ 0x04F →
      exec (.ldB x) s = .fault (.outOfBounds s.idx.toNat) ∧ exec (.ldMemVx x) s = .fault (.outOfBounds s.idx.toNat)) ∧
    (0xFFF < s.idx.toNat + 2 → exec (.ldB x) s = .fault (.outOfBounds (max s.idx.toNat 0x1000))) ∧
    (0xFFF < s.idx.toNat + x.val →
      exec (.ldMemVx x) s = .fault (.outOfBounds (max s.idx.toNat 0x1000)) ∧
      exec (.ldVxMem x) s = .fault (.outOfBounds (max s.idx.toNat 0x1000)))

/-- Fx55 then Fx65 with the same x and I round-trips V0 to Vx, whatever the registers hold in between
(95_test_vectors.md W9; R98, R99). -/
def Obligations.StoreThenLoadRoundTrips : Prop :=
  ∀ (s t u v : State) (x : Reg), exec (.ldMemVx x) s = .next t →
    u.mem = t.mem → u.params = t.params → u.idx = s.idx → exec (.ldVxMem x) u = .next v →
    ∀ r : Reg, r ≤ x → readReg v r = readReg s r

/-- A store is seen by the very next fetch: an Fx55 that writes over the next instruction makes the next cycle fetch V0 and
V1 (R42, which the spec derives). -/
def Obligations.StoreSeenByNextFetch : Prop :=
  ∀ (s t : State) (x : Reg), 1 ≤ x.val → s.idx = s.pc → exec (.ldMemVx x) s = .next t →
    fetch t = .ok (Word.ofBytes (readReg s 0) (readReg s 1))

/-! ## Timers and keys -/

/-- Fx07 reads DT, Fx15 writes DT, Fx18 writes ST, and none changes anything else (R101 to R103). -/
def Obligations.TimerInstructions : Prop :=
  ∀ (s : State) (x : Reg), ∃ t u v, exec (.ldVxDt x) s = .next t ∧ exec (.ldDtVx x) s = .next u ∧
    exec (.ldStVx x) s = .next v ∧
    readReg t x = s.dt ∧ OtherRegsSame [x] s t ∧ ChangesOnly [.regs] s t ∧
    u.dt = readReg s x ∧ ChangesOnly [.dt] s u ∧ v.st = readReg s x ∧ ChangesOnly [.st] s v

/-- Ex9E skips exactly when key Vx is pressed, ExA1 exactly when not (R105, R106), and both raise OutOfBounds for a code
above 0xF (the spec's decision D11, log 14). -/
def Obligations.KeySkips : Prop :=
  ∀ (s : State) (x : Reg),
    (∀ k : Reg, (readReg s x).toNat = k.val →
      ∃ t u, exec (.skp x) s = .next t ∧ exec (.sknp x) s = .next u ∧
        t.pc = (if s.keys[k] = true then s.pc + 2 else s.pc) ∧ u.pc = (if s.keys[k] = true then s.pc else s.pc + 2) ∧
        ChangesOnly [.pc] s t ∧ ChangesOnly [.pc] s u) ∧
    (0xF < (readReg s x).toNat →
      exec (.skp x) s = .fault (.outOfBounds (readReg s x).toNat) ∧
      exec (.sknp x) s = .fault (.outOfBounds (readReg s x).toNat))

/-- Fx0A gives Vx the lowest pressed key's code, or sets PC back to its own address with Vx unchanged (R107; level-sensitive
by the spec's decision D12, log 15). -/
def Obligations.WaitForKeyTakesLowest : Prop :=
  ∀ (s : State) (x : Reg),
    (∀ k : Reg, s.keys[k] = true → (∀ j < k, s.keys[j] = false) →
      ∃ t, exec (.ldVxK x) s = .next t ∧ (readReg t x).toNat = k.val ∧ OtherRegsSame [x] s t ∧
        ChangesOnly [.regs] s t) ∧
    ((∀ k : Reg, s.keys[k] = false) →
      ∃ t, exec (.ldVxK x) s = .next t ∧ t.pc = s.pc - 2 ∧ ChangesOnly [.pc] s t)

/-- Fx0A with no key pressed, and a jump to itself, repeat one instruction: the cycle leaves the whole state as it was
(R145, R147; D12 and D28, log 15 and 22). -/
def Obligations.WaitAndSelfJumpRepeat : Prop :=
  ∀ s : State,
    (haltedAt s = true → step s = .next s) ∧
    (∀ x : Reg, s.pc.toNat < 0xFFF →
      Word.ofBytes (byteAt s s.pc.toNat) (byteAt s (s.pc.toNat + 1)) = encode (.ldVxK x) →
      (∀ k : Reg, s.keys[k] = false) → step s = .next s)

/-! ## Construction -/

/-- At construction PC is 0x200 and the font region reads as the font table, whichever it is (R138; PC from R21's source
words). -/
def Obligations.ConstructionPcAndFont : Prop :=
  ∀ p : Config.Params, (State.construct p).pc = 0x200 ∧
    ∀ k : Fin 80, memRead (State.construct p) k.val = .ok p.font[k]

/-- At construction everything but PC and the font is zero, unset or released (the spec's decision D1, log 1). -/
def Obligations.ConstructionZeroes : Prop :=
  ∀ p : Config.Params, let s := State.construct p
    (∀ r, readReg s r = 0) ∧ s.idx = 0 ∧ s.sp = 0 ∧ (∀ k : Fin 16, s.stack[k] = 0) ∧ s.dt = 0 ∧ s.st = 0 ∧
    (∀ y x, s.fb.pixel y x = false) ∧ (∀ k : Fin 16, s.keys[k] = false) ∧
    ∀ a, 80 ≤ a → a < 0x1000 → memRead s a = .ok 0

/-! ## Invariants -/

/-- The construction state meets the three invariants below. -/
def Obligations.ConstructionMeetsInvariants : Prop :=
  ∀ p : Config.Params, MemoryCanonical (State.construct p) ∧ PcBounded (State.construct p) ∧
    FontIntact (State.construct p)

/-- Every step keeps memory in its canonical form (the model's own form, log 25; no access leaves 0x000 to 0xFFF, R33,
R34). -/
def Obligations.StepKeepsMemoryCanonical : Prop :=
  ∀ s t : State, MemoryCanonical s → step s = .next t → MemoryCanonical t

/-- Every host operation keeps memory in its canonical form, whatever image or record the host offers (log 25). -/
def Obligations.HostOpKeepsMemoryCanonical : Prop :=
  ∀ (op : HostOp) (s : State), MemoryCanonical s → MemoryCanonical (hostOp op s).1

/-- Every step keeps PC at most 0x10FE and every stack entry at most 0x1000, so 16 bits always hold them (R22, which the
spec derives and decides in D2, log 10). -/
def Obligations.StepKeepsPcBounded : Prop :=
  ∀ s t : State, PcBounded s → step s = .next t → PcBounded t

/-- Under P_FONT_WRITE = FAULT (the spec's decision D4, log 6) no step changes a byte of 0x000 to 0x04F, so the font stays
intact. -/
def Obligations.FontNeverOverwritten : Prop :=
  ∀ s t : State, s.params.fontWrite = .fault → step s = .next t →
    (∀ a ≤ 0x04F, memRead t a = memRead s a) ∧ (FontIntact s → FontIntact t)

/-! ## What only some instructions do -/

/-- Only 00E0 and Dxyn change the framebuffer (R28). -/
def Obligations.FramebufferWriters : Prop :=
  ∀ (i : Instr) (s t : State), exec i s = .next t → i ≠ .cls → (∀ x y n, i ≠ .drw x y n) →
    ∀ y x, t.fb.pixel y x = s.fb.pixel y x

/-- Only Fx33 and Fx55 change memory (R35, which the spec derives). -/
def Obligations.MemoryWriters : Prop :=
  ∀ (i : Instr) (s t : State), exec i s = .next t → (∀ x, i ≠ .ldB x) → (∀ x, i ≠ .ldMemVx x) →
    ∀ a, memRead t a = memRead s a

/-- An instruction writes only its named destination registers, and VF where it has a flag rule (R15, which the spec
derives, and R18). -/
def Obligations.RegisterWriters : Prop :=
  ∀ (i : Instr) (s t : State) (r : Reg), exec i s = .next t → writesReg i r = false →
    readReg t r = readReg s r

/-- Only 2nnn and 00EE change the call stack or SP, and only Annn, Fx1E, Fx29 and, under P_LDST_INDEX = ADVANCE (D8, log 8),
Fx55 and Fx65 change I (R20, R24). -/
def Obligations.StackAndIndexWriters : Prop :=
  ∀ (i : Instr) (s t : State), exec i s = .next t →
    ((∀ nnn, i ≠ .call nnn) → i ≠ .ret → t.sp = s.sp ∧ t.stack = s.stack) ∧
    ((∀ nnn, i ≠ .ldI nnn) → (∀ x, i ≠ .addI x) → (∀ x, i ≠ .ldF x) →
      (s.params.ldstIndex = .advance → ∀ x, i ≠ .ldMemVx x ∧ i ≠ .ldVxMem x) → t.idx = s.idx)

/-- The engine never decrements a timer: only Fx15 changes DT and only Fx18 changes ST (R26, R27). -/
def Obligations.TimerWriters : Prop :=
  ∀ (i : Instr) (s t : State), exec i s = .next t →
    ((∀ x, i ≠ .ldDtVx x) → t.dt = s.dt) ∧ ((∀ x, i ≠ .ldStVx x) → t.st = s.st)

/-- The engine only reads the keypad, and no step changes the parameters (R29; parameters in the state are the model's own,
log 2). -/
def Obligations.KeypadAndParametersReadOnly : Prop :=
  ∀ s t : State, step s = .next t → t.keys = s.keys ∧ t.params = s.params

/-- StackOverflow is raised only by 2nnn, exactly when SP = 16, and StackUnderflow only by 00EE, exactly when SP = 0, each
with the instruction's address (R110, R111). -/
def Obligations.StackErrorCauses : Prop :=
  ∀ (i : Instr) (s : State) (a : Word),
    (exec i s = .fault (.stackOverflow a) ↔ (∃ nnn, i = .call nnn) ∧ s.sp = 16 ∧ a = s.pc - 2) ∧
    (exec i s = .fault (.stackUnderflow a) ↔ i = .ret ∧ s.sp = 0 ∧ a = s.pc - 2)

/-! ## The host's operations -/

/-- LoadProgram writes its bytes from 0x200 on and nothing else, and fails without writing above 0xE00 bytes (R140; repeated
loads are the spec's decision D22, log 18). -/
def Obligations.LoadProgramWritesImage : Prop :=
  ∀ (s : State) (bs : List Byte),
    (bs.length ≤ 0xE00 → ∃ t, hostOp (.loadProgram bs) s = (t, .ok) ∧
      (∀ i (h : i < bs.length), memRead t (0x200 + i) = .ok bs[i]) ∧
      (∀ a, a < 0x200 ∨ 0x200 + bs.length ≤ a → memRead t a = memRead s a) ∧ ChangesOnly [.mem] s t) ∧
    (0xE00 < bs.length → ∃ r, hostOp (.loadProgram bs) s = (s, .err r) ∧ r.code = 5 ∧ r.info = bs.length)

/-- KeyQuery returns the lowest-numbered pressed key, or none, and changes no state (R131). -/
def Obligations.KeyQueryReturnsLowest : Prop :=
  ∀ s : State, ∃ q, hostOp .keyQuery s = (s, .key q) ∧
    (∀ k, q = some k ↔ s.keys[k] = true ∧ ∀ j < k, s.keys[j] = false) ∧ (q = none ↔ ∀ k : Reg, s.keys[k] = false)

/-- FramebufferRead returns the 2048 pixels in row-major order, index y·64 + x, and changes no state (R132). -/
def Obligations.FramebufferReadIsRowMajor : Prop :=
  ∀ s : State, ∃ l, hostOp .framebufferRead s = (s, .pixels l) ∧ l.length = 2048 ∧
    ∀ (y : Fin 32) (x : Fin 64), l[y.val * 64 + x.val]? = some (s.fb.pixel y x)

/-- KeySet and KeyClear write one key, and reject a code above 0xF; TimerTick takes one from each timer that is not zero
(R130, R133: the spec's decisions D23 and D14, log 17 and 19). -/
def Obligations.KeyAndTimerOperations : Prop :=
  ∀ (s : State) (k : Nat) (b : Bool), let op := if b then HostOp.keySet k else HostOp.keyClear k
    (∀ h : k < 16, ∃ t, hostOp op s = (t, .ok) ∧ t.keys[k] = b ∧ (∀ j : Reg, j.val ≠ k → t.keys[j] = s.keys[j]) ∧
      ChangesOnly [.keys] s t) ∧
    (16 ≤ k → hostOp op s = (s, .rejected)) ∧
    ∃ t, hostOp .timerTick s = (t, .ok) ∧ t.dt.toNat = s.dt.toNat - 1 ∧ t.st.toNat = s.st.toNat - 1 ∧
      ChangesOnly [.dt, .st] s t

/-- A snapshot restored into any machine of the same parameters gives back every field but KEY and the model's draw counter,
and a record with SP above 16 is rejected with nothing changed (R134: the spec's decision D24, log 20). -/
def Obligations.RestoreOfSnapshotRoundTrips : Prop :=
  ∀ s u : State, MemoryCanonical s → u.params = s.params →
    hostOp (.restore (snapshotOf s)) u = ({ s with keys := u.keys, draws := u.draws }, .ok) ∧
    ∀ r : Snapshot, 16 < r.sp → hostOp (.restore r) u = (u, .rejected)

/-- A failed cycle leaves the whole state as it was, with PC at the failing instruction, and reports the error's code, that
PC and the info (the spec's decisions D3 and D18, log 11 and 23). -/
def Obligations.FailedCycleKeepsState : Prop :=
  ∀ (s : State) (f : Fault), step s = .fault f → ∃ r, hostOp .cycle s = (s, .err r) ∧
    r.code = f.code ∧ r.pc = some s.pc ∧ r.info = f.info ∧
    (s.pc.toNat < 0xFFF → r.word = some (Word.ofBytes (byteAt s s.pc.toNat) (byteAt s (s.pc.toNat + 1)))) ∧
    (0xFFF ≤ s.pc.toNat → r.word = none)
end

