-- ==== Sys2Proof/Laws/State.lean ====
section
/-! SUPPORT. One lemma per field per update of State, true by rfl, so that no proof unfolds a record update. -/

namespace Sys2Proof.Machine

variable (s : State)

@[simp] theorem writeReg_regs (x : Reg) (v : Byte) : (writeReg s x v).regs = s.regs.set x v := rfl
@[simp] theorem writeReg_idx (x : Reg) (v : Byte) : (writeReg s x v).idx = s.idx := rfl
@[simp] theorem writeReg_pc (x : Reg) (v : Byte) : (writeReg s x v).pc = s.pc := rfl
@[simp] theorem writeReg_stack (x : Reg) (v : Byte) : (writeReg s x v).stack = s.stack := rfl
@[simp] theorem writeReg_sp (x : Reg) (v : Byte) : (writeReg s x v).sp = s.sp := rfl
@[simp] theorem writeReg_dt (x : Reg) (v : Byte) : (writeReg s x v).dt = s.dt := rfl
@[simp] theorem writeReg_st (x : Reg) (v : Byte) : (writeReg s x v).st = s.st := rfl
@[simp] theorem writeReg_fb (x : Reg) (v : Byte) : (writeReg s x v).fb = s.fb := rfl
@[simp] theorem writeReg_mem (x : Reg) (v : Byte) : (writeReg s x v).mem = s.mem := rfl
@[simp] theorem writeReg_keys (x : Reg) (v : Byte) : (writeReg s x v).keys = s.keys := rfl
@[simp] theorem writeReg_draws (x : Reg) (v : Byte) : (writeReg s x v).draws = s.draws := rfl
@[simp] theorem writeReg_params (x : Reg) (v : Byte) : (writeReg s x v).params = s.params := rfl

@[simp] theorem setIdx_regs (a : Word) : (setIdx s a).regs = s.regs := rfl
@[simp] theorem setIdx_idx (a : Word) : (setIdx s a).idx = a := rfl
@[simp] theorem setIdx_pc (a : Word) : (setIdx s a).pc = s.pc := rfl
@[simp] theorem setIdx_stack (a : Word) : (setIdx s a).stack = s.stack := rfl
@[simp] theorem setIdx_sp (a : Word) : (setIdx s a).sp = s.sp := rfl
@[simp] theorem setIdx_dt (a : Word) : (setIdx s a).dt = s.dt := rfl
@[simp] theorem setIdx_st (a : Word) : (setIdx s a).st = s.st := rfl
@[simp] theorem setIdx_fb (a : Word) : (setIdx s a).fb = s.fb := rfl
@[simp] theorem setIdx_mem (a : Word) : (setIdx s a).mem = s.mem := rfl
@[simp] theorem setIdx_keys (a : Word) : (setIdx s a).keys = s.keys := rfl
@[simp] theorem setIdx_draws (a : Word) : (setIdx s a).draws = s.draws := rfl
@[simp] theorem setIdx_params (a : Word) : (setIdx s a).params = s.params := rfl

@[simp] theorem setPc_regs (a : Word) : (setPc s a).regs = s.regs := rfl
@[simp] theorem setPc_idx (a : Word) : (setPc s a).idx = s.idx := rfl
@[simp] theorem setPc_pc (a : Word) : (setPc s a).pc = a := rfl
@[simp] theorem setPc_stack (a : Word) : (setPc s a).stack = s.stack := rfl
@[simp] theorem setPc_sp (a : Word) : (setPc s a).sp = s.sp := rfl
@[simp] theorem setPc_dt (a : Word) : (setPc s a).dt = s.dt := rfl
@[simp] theorem setPc_st (a : Word) : (setPc s a).st = s.st := rfl
@[simp] theorem setPc_fb (a : Word) : (setPc s a).fb = s.fb := rfl
@[simp] theorem setPc_mem (a : Word) : (setPc s a).mem = s.mem := rfl
@[simp] theorem setPc_keys (a : Word) : (setPc s a).keys = s.keys := rfl
@[simp] theorem setPc_draws (a : Word) : (setPc s a).draws = s.draws := rfl
@[simp] theorem setPc_params (a : Word) : (setPc s a).params = s.params := rfl

@[simp] theorem setDt_regs (v : Byte) : (setDt s v).regs = s.regs := rfl
@[simp] theorem setDt_idx (v : Byte) : (setDt s v).idx = s.idx := rfl
@[simp] theorem setDt_pc (v : Byte) : (setDt s v).pc = s.pc := rfl
@[simp] theorem setDt_stack (v : Byte) : (setDt s v).stack = s.stack := rfl
@[simp] theorem setDt_sp (v : Byte) : (setDt s v).sp = s.sp := rfl
@[simp] theorem setDt_dt (v : Byte) : (setDt s v).dt = v := rfl
@[simp] theorem setDt_st (v : Byte) : (setDt s v).st = s.st := rfl
@[simp] theorem setDt_fb (v : Byte) : (setDt s v).fb = s.fb := rfl
@[simp] theorem setDt_mem (v : Byte) : (setDt s v).mem = s.mem := rfl
@[simp] theorem setDt_keys (v : Byte) : (setDt s v).keys = s.keys := rfl
@[simp] theorem setDt_draws (v : Byte) : (setDt s v).draws = s.draws := rfl
@[simp] theorem setDt_params (v : Byte) : (setDt s v).params = s.params := rfl

@[simp] theorem setSt_regs (v : Byte) : (setSt s v).regs = s.regs := rfl
@[simp] theorem setSt_idx (v : Byte) : (setSt s v).idx = s.idx := rfl
@[simp] theorem setSt_pc (v : Byte) : (setSt s v).pc = s.pc := rfl
@[simp] theorem setSt_stack (v : Byte) : (setSt s v).stack = s.stack := rfl
@[simp] theorem setSt_sp (v : Byte) : (setSt s v).sp = s.sp := rfl
@[simp] theorem setSt_dt (v : Byte) : (setSt s v).dt = s.dt := rfl
@[simp] theorem setSt_st (v : Byte) : (setSt s v).st = v := rfl
@[simp] theorem setSt_fb (v : Byte) : (setSt s v).fb = s.fb := rfl
@[simp] theorem setSt_mem (v : Byte) : (setSt s v).mem = s.mem := rfl
@[simp] theorem setSt_keys (v : Byte) : (setSt s v).keys = s.keys := rfl
@[simp] theorem setSt_draws (v : Byte) : (setSt s v).draws = s.draws := rfl
@[simp] theorem setSt_params (v : Byte) : (setSt s v).params = s.params := rfl

@[simp] theorem setFb_regs (fb : Framebuffer) : (setFb s fb).regs = s.regs := rfl
@[simp] theorem setFb_idx (fb : Framebuffer) : (setFb s fb).idx = s.idx := rfl
@[simp] theorem setFb_pc (fb : Framebuffer) : (setFb s fb).pc = s.pc := rfl
@[simp] theorem setFb_stack (fb : Framebuffer) : (setFb s fb).stack = s.stack := rfl
@[simp] theorem setFb_sp (fb : Framebuffer) : (setFb s fb).sp = s.sp := rfl
@[simp] theorem setFb_dt (fb : Framebuffer) : (setFb s fb).dt = s.dt := rfl
@[simp] theorem setFb_st (fb : Framebuffer) : (setFb s fb).st = s.st := rfl
@[simp] theorem setFb_fb (fb : Framebuffer) : (setFb s fb).fb = fb := rfl
@[simp] theorem setFb_mem (fb : Framebuffer) : (setFb s fb).mem = s.mem := rfl
@[simp] theorem setFb_keys (fb : Framebuffer) : (setFb s fb).keys = s.keys := rfl
@[simp] theorem setFb_draws (fb : Framebuffer) : (setFb s fb).draws = s.draws := rfl
@[simp] theorem setFb_params (fb : Framebuffer) : (setFb s fb).params = s.params := rfl

@[simp] theorem putBytes_regs (a : Nat) (bs : List Byte) : (putBytes s a bs).regs = s.regs := rfl
@[simp] theorem putBytes_idx (a : Nat) (bs : List Byte) : (putBytes s a bs).idx = s.idx := rfl
@[simp] theorem putBytes_pc (a : Nat) (bs : List Byte) : (putBytes s a bs).pc = s.pc := rfl
@[simp] theorem putBytes_stack (a : Nat) (bs : List Byte) : (putBytes s a bs).stack = s.stack := rfl
@[simp] theorem putBytes_sp (a : Nat) (bs : List Byte) : (putBytes s a bs).sp = s.sp := rfl
@[simp] theorem putBytes_dt (a : Nat) (bs : List Byte) : (putBytes s a bs).dt = s.dt := rfl
@[simp] theorem putBytes_st (a : Nat) (bs : List Byte) : (putBytes s a bs).st = s.st := rfl
@[simp] theorem putBytes_fb (a : Nat) (bs : List Byte) : (putBytes s a bs).fb = s.fb := rfl
@[simp] theorem putBytes_mem (a : Nat) (bs : List Byte) : (putBytes s a bs).mem = Memory.setBytes s.params.font s.mem a bs := rfl
@[simp] theorem putBytes_keys (a : Nat) (bs : List Byte) : (putBytes s a bs).keys = s.keys := rfl
@[simp] theorem putBytes_draws (a : Nat) (bs : List Byte) : (putBytes s a bs).draws = s.draws := rfl
@[simp] theorem putBytes_params (a : Nat) (bs : List Byte) : (putBytes s a bs).params = s.params := rfl

@[simp] theorem advance_regs : (advance s).regs = s.regs := rfl
@[simp] theorem advance_idx : (advance s).idx = s.idx := rfl
@[simp] theorem advance_pc : (advance s).pc = s.pc + 2 := rfl
@[simp] theorem advance_stack : (advance s).stack = s.stack := rfl
@[simp] theorem advance_sp : (advance s).sp = s.sp := rfl
@[simp] theorem advance_dt : (advance s).dt = s.dt := rfl
@[simp] theorem advance_st : (advance s).st = s.st := rfl
@[simp] theorem advance_fb : (advance s).fb = s.fb := rfl
@[simp] theorem advance_mem : (advance s).mem = s.mem := rfl
@[simp] theorem advance_keys : (advance s).keys = s.keys := rfl
@[simp] theorem advance_draws : (advance s).draws = s.draws := rfl
@[simp] theorem advance_params : (advance s).params = s.params := rfl

@[simp] theorem draw_regs : (draw s).2.regs = s.regs := rfl
@[simp] theorem draw_idx : (draw s).2.idx = s.idx := rfl
@[simp] theorem draw_pc : (draw s).2.pc = s.pc := rfl
@[simp] theorem draw_stack : (draw s).2.stack = s.stack := rfl
@[simp] theorem draw_sp : (draw s).2.sp = s.sp := rfl
@[simp] theorem draw_dt : (draw s).2.dt = s.dt := rfl
@[simp] theorem draw_st : (draw s).2.st = s.st := rfl
@[simp] theorem draw_fb : (draw s).2.fb = s.fb := rfl
@[simp] theorem draw_mem : (draw s).2.mem = s.mem := rfl
@[simp] theorem draw_keys : (draw s).2.keys = s.keys := rfl
@[simp] theorem draw_draws : (draw s).2.draws = s.draws + 1 := rfl
@[simp] theorem draw_params : (draw s).2.params = s.params := rfl

@[simp] theorem skipIf_regs (c : Bool) : (skipIf c s).regs = s.regs := by cases c <;> rfl
@[simp] theorem skipIf_idx (c : Bool) : (skipIf c s).idx = s.idx := by cases c <;> rfl
@[simp] theorem skipIf_pc (c : Bool) : (skipIf c s).pc = if c then s.pc + 2 else s.pc := by cases c <;> rfl
@[simp] theorem skipIf_stack (c : Bool) : (skipIf c s).stack = s.stack := by cases c <;> rfl
@[simp] theorem skipIf_sp (c : Bool) : (skipIf c s).sp = s.sp := by cases c <;> rfl
@[simp] theorem skipIf_dt (c : Bool) : (skipIf c s).dt = s.dt := by cases c <;> rfl
@[simp] theorem skipIf_st (c : Bool) : (skipIf c s).st = s.st := by cases c <;> rfl
@[simp] theorem skipIf_fb (c : Bool) : (skipIf c s).fb = s.fb := by cases c <;> rfl
@[simp] theorem skipIf_mem (c : Bool) : (skipIf c s).mem = s.mem := by cases c <;> rfl
@[simp] theorem skipIf_keys (c : Bool) : (skipIf c s).keys = s.keys := by cases c <;> rfl
@[simp] theorem skipIf_draws (c : Bool) : (skipIf c s).draws = s.draws := by cases c <;> rfl
@[simp] theorem skipIf_params (c : Bool) : (skipIf c s).params = s.params := by cases c <;> rfl

@[simp] theorem writeResultFlag_idx (x : Reg) (r : Byte × Bool) : (writeResultFlag s x r).idx = s.idx := rfl
@[simp] theorem writeResultFlag_pc (x : Reg) (r : Byte × Bool) : (writeResultFlag s x r).pc = s.pc := rfl
@[simp] theorem writeResultFlag_stack (x : Reg) (r : Byte × Bool) : (writeResultFlag s x r).stack = s.stack := rfl
@[simp] theorem writeResultFlag_sp (x : Reg) (r : Byte × Bool) : (writeResultFlag s x r).sp = s.sp := rfl
@[simp] theorem writeResultFlag_dt (x : Reg) (r : Byte × Bool) : (writeResultFlag s x r).dt = s.dt := rfl
@[simp] theorem writeResultFlag_st (x : Reg) (r : Byte × Bool) : (writeResultFlag s x r).st = s.st := rfl
@[simp] theorem writeResultFlag_fb (x : Reg) (r : Byte × Bool) : (writeResultFlag s x r).fb = s.fb := rfl
@[simp] theorem writeResultFlag_mem (x : Reg) (r : Byte × Bool) : (writeResultFlag s x r).mem = s.mem := rfl
@[simp] theorem writeResultFlag_keys (x : Reg) (r : Byte × Bool) : (writeResultFlag s x r).keys = s.keys := rfl
@[simp] theorem writeResultFlag_draws (x : Reg) (r : Byte × Bool) : (writeResultFlag s x r).draws = s.draws := rfl
@[simp] theorem writeResultFlag_params (x : Reg) (r : Byte × Bool) : (writeResultFlag s x r).params = s.params := rfl

@[simp] theorem endBlock_regs (x : Reg) : (endBlock x s).regs = s.regs := by unfold endBlock; cases s.params.ldstIndex <;> rfl
theorem endBlock_idx (x : Reg) : (endBlock x s).idx =
    match s.params.ldstIndex with
    | .keep => s.idx
    | .advance => s.idx + BitVec.ofNat 16 (x.val + 1) := by
  unfold endBlock; cases s.params.ldstIndex <;> rfl
@[simp] theorem endBlock_pc (x : Reg) : (endBlock x s).pc = s.pc := by unfold endBlock; cases s.params.ldstIndex <;> rfl
@[simp] theorem endBlock_stack (x : Reg) : (endBlock x s).stack = s.stack := by unfold endBlock; cases s.params.ldstIndex <;> rfl
@[simp] theorem endBlock_sp (x : Reg) : (endBlock x s).sp = s.sp := by unfold endBlock; cases s.params.ldstIndex <;> rfl
@[simp] theorem endBlock_dt (x : Reg) : (endBlock x s).dt = s.dt := by unfold endBlock; cases s.params.ldstIndex <;> rfl
@[simp] theorem endBlock_st (x : Reg) : (endBlock x s).st = s.st := by unfold endBlock; cases s.params.ldstIndex <;> rfl
@[simp] theorem endBlock_fb (x : Reg) : (endBlock x s).fb = s.fb := by unfold endBlock; cases s.params.ldstIndex <;> rfl
@[simp] theorem endBlock_mem (x : Reg) : (endBlock x s).mem = s.mem := by unfold endBlock; cases s.params.ldstIndex <;> rfl
@[simp] theorem endBlock_keys (x : Reg) : (endBlock x s).keys = s.keys := by unfold endBlock; cases s.params.ldstIndex <;> rfl
@[simp] theorem endBlock_draws (x : Reg) : (endBlock x s).draws = s.draws := by unfold endBlock; cases s.params.ldstIndex <;> rfl
@[simp] theorem endBlock_params (x : Reg) : (endBlock x s).params = s.params := by unfold endBlock; cases s.params.ldstIndex <;> rfl

end Sys2Proof.Machine
end

