-- ==== Sys2Proof/Laws/Memory.lean ====
section
/-! SUPPORT. The basic laws of memory: read after write, the frame of a write, the canonical form, extensionality. -/

namespace Sys2Proof.Machine

variable (font : Config.Font) (m : Memory)

/-! ## Listing and erasing -/

theorem Memory.lookup_put (a c : Nat) (v : Byte) :
    Memory.lookup (Memory.put m a v) c = if c = a then some v else Memory.lookup m c := by
  induction m with
  | nil => simp [Memory.put, Memory.lookup]
  | cons e m ih =>
    obtain ⟨b, u⟩ := e
    unfold Memory.put
    split
    · subst_vars; by_cases h : c = b <;> simp [Memory.lookup, h]
    · split
      · simp [Memory.lookup]
      · by_cases h : c = b
        · subst h
          rw [if_neg (by omega)]
          simp [Memory.lookup]
        · simp [Memory.lookup, h, ih]

theorem Memory.lookup_erase (a c : Nat) :
    Memory.lookup (Memory.erase m a) c = if c = a then none else Memory.lookup m c := by
  induction m with
  | nil => simp [Memory.erase, Memory.lookup]
  | cons e m ih =>
    obtain ⟨b, u⟩ := e
    unfold Memory.erase at ih ⊢
    by_cases hb : b = a
    · subst hb
      simp only [List.filter_cons, ne_eq, not_true_eq_false, decide_false, Bool.false_eq_true, if_false, ih]
      by_cases h : c = b <;> simp [Memory.lookup, h]
    · simp only [List.filter_cons, ne_eq, hb, not_false_eq_true, decide_true, if_true, Memory.lookup, ih]
      by_cases h : c = b
      · subst h; simp [hb]
      · simp [h]

/-- Read after write: the written byte at its address, every other address as before. -/
theorem Memory.byteAt_set (a c : Nat) (v : Byte) :
    Memory.byteAt font (Memory.set font m a v) c = if c = a then v else Memory.byteAt font m c := by
  unfold Memory.set Memory.byteAt
  split
  · rename_i h
    rw [Memory.lookup_erase]
    by_cases hc : c = a
    · subst hc; simp [h]
    · simp [hc]
  · rw [Memory.lookup_put]
    by_cases hc : c = a <;> simp [hc]

/-- Reading after a block write. -/
theorem Memory.byteAt_setBytes (bs : List Byte) (a c : Nat) :
    Memory.byteAt font (Memory.setBytes font m a bs) c =
      if a ≤ c then bs.getD (c - a) (Memory.byteAt font m c) else Memory.byteAt font m c := by
  induction bs generalizing a m with
  | nil => simp [Memory.setBytes]
  | cons b bs ih =>
    rw [Memory.setBytes, ih]
    rcases Nat.lt_trichotomy a c with h | h | h
    · rw [if_pos (by omega), if_pos (by omega)]
      have : c - a = (c - (a + 1)) + 1 := by omega
      simp [this, Memory.byteAt_set, Nat.ne_of_gt h]
    · subst h; simp [Memory.byteAt_set]
    · rw [if_neg (by omega), if_neg (by omega)]
      simp [Memory.byteAt_set, Nat.ne_of_lt h]

/-! ## The canonical form -/

theorem Memory.mem_put {a : Nat} {v : Byte} {c : Host.Cell} (h : c ∈ Memory.put m a v) :
    c = (a, v) ∨ c ∈ m := by
  induction m with
  | nil => simpa [Memory.put] using h
  | cons e m ih =>
    obtain ⟨b, u⟩ := e
    unfold Memory.put at h
    split at h
    · simp at h; tauto
    · split at h
      · simpa using h
      · simp only [List.mem_cons] at h ⊢
        rcases h with h | h
        · exact .inr (.inl h)
        · rcases ih h with h | h
          · exact .inl h
          · exact .inr (.inr h)

theorem Memory.put_rising (a : Nat) (v : Byte) (h : m.Pairwise (fun c d => c.1 < d.1)) :
    (Memory.put m a v).Pairwise (fun c d => c.1 < d.1) := by
  induction m with
  | nil => simp [Memory.put]
  | cons e m ih =>
    obtain ⟨b, u⟩ := e
    obtain ⟨hb, hm⟩ := List.pairwise_cons.1 h
    unfold Memory.put
    split
    · subst_vars; exact List.pairwise_cons.2 ⟨hb, hm⟩
    · split
      · rename_i hlt
        refine List.pairwise_cons.2 ⟨fun c hc => ?_, h⟩
        rcases List.mem_cons.1 hc with rfl | hc
        · exact hlt
        · exact Nat.lt_trans hlt (hb c hc)
      · refine List.pairwise_cons.2 ⟨fun c hc => ?_, ih hm⟩
        rcases Memory.mem_put m hc with rfl | hc
        · show b < a; omega
        · exact hb c hc

/-- A write inside the address space keeps the canonical form. -/
theorem Memory.set_wf {a : Nat} {v : Byte} (ha : a < 4096) (h : Memory.wf font m) :
    Memory.wf font (Memory.set font m a v) := by
  unfold Memory.set
  split
  · exact ⟨h.1.filter _, fun c hc => h.2 c (List.mem_filter.1 hc).1⟩
  · rename_i hv
    refine ⟨Memory.put_rising m a v h.1, fun c hc => ?_⟩
    rcases Memory.mem_put m hc with rfl | hc
    · exact ⟨ha, hv⟩
    · exact h.2 c hc

/-- A block write inside the address space keeps the canonical form. -/
theorem Memory.setBytes_wf (bs : List Byte) (a : Nat) (ha : a + bs.length ≤ 4096) (h : Memory.wf font m) :
    Memory.wf font (Memory.setBytes font m a bs) := by
  induction bs generalizing a m with
  | nil => exact h
  | cons b bs ih =>
    simp only [List.length_cons] at ha
    exact ih _ (a + 1) (by omega) (Memory.set_wf font m (by omega) h)

theorem Memory.nil_wf : Memory.wf font [] := by simp [Memory.wf]

theorem Memory.lookup_eq_none_of_lt {m : Memory} {a : Nat} (h : ∀ c ∈ m, a < c.1) : Memory.lookup m a = none := by
  induction m with
  | nil => rfl
  | cons e m ih =>
    obtain ⟨b, u⟩ := e
    have hb : a < b := h (b, u) (by simp)
    rw [Memory.lookup, if_neg (by omega)]
    exact ih fun c hc => h c (by simp [hc])

/-- In a canonical memory, a byte reads as other than unlisted exactly at the listed addresses. -/
theorem Memory.byteAt_unlisted_of_lt {m : Memory} {a : Nat} (h : ∀ c ∈ m, a < c.1) :
    Memory.byteAt font m a = Memory.unlisted font a := by
  simp [Memory.byteAt, Memory.lookup_eq_none_of_lt h]

/-- Equal memories are equal data: two canonical memories that read alike are the same list. -/
theorem Memory.wf_ext {m m' : Memory} (h : Memory.wf font m) (h' : Memory.wf font m')
    (heq : ∀ a, Memory.byteAt font m a = Memory.byteAt font m' a) : m = m' := by
  induction m generalizing m' with
  | nil =>
    cases m' with
    | nil => rfl
    | cons e m' =>
      obtain ⟨b, u⟩ := e
      have := heq b
      simp [Memory.byteAt, Memory.lookup] at this
      exact absurd this.symm (h'.2 (b, u) (by simp)).2
  | cons e m ih =>
    obtain ⟨b, u⟩ := e
    cases m' with
    | nil =>
      have := heq b
      simp [Memory.byteAt, Memory.lookup] at this
      exact absurd this (h.2 (b, u) (by simp)).2
    | cons e' m' =>
      obtain ⟨b', u'⟩ := e'
      obtain ⟨hs, hm⟩ := List.pairwise_cons.1 h.1
      obtain ⟨hs', hm'⟩ := List.pairwise_cons.1 h'.1
      have hbb : b = b' := by
        rcases Nat.lt_trichotomy b b' with hlt | heq' | hlt
        · have h1 := heq b
          rw [Memory.byteAt_unlisted_of_lt (m := (b', u') :: m') font (fun c hc => by
            rcases List.mem_cons.1 hc with rfl | hc
            · exact hlt
            · exact Nat.lt_trans hlt (hs' c hc))] at h1
          simp [Memory.byteAt, Memory.lookup] at h1
          exact absurd h1 (h.2 (b, u) (by simp)).2
        · exact heq'
        · have h1 := heq b'
          rw [Memory.byteAt_unlisted_of_lt (m := (b, u) :: m) font (fun c hc => by
            rcases List.mem_cons.1 hc with rfl | hc
            · exact hlt
            · exact Nat.lt_trans hlt (hs c hc))] at h1
          simp [Memory.byteAt, Memory.lookup] at h1
          exact absurd h1.symm (h'.2 (b', u') (by simp)).2
      subst hbb
      have hu : u = u' := by have := heq b; simpa [Memory.byteAt, Memory.lookup] using this
      subst hu
      congr 1
      refine ih ⟨hm, fun c hc => h.2 c (by simp [hc])⟩ ⟨hm', fun c hc => h'.2 c (by simp [hc])⟩ fun a => ?_
      by_cases ha : a = b
      · subst ha
        rw [Memory.byteAt_unlisted_of_lt font hs, Memory.byteAt_unlisted_of_lt font hs']
      · have := heq a
        simpa [Memory.byteAt, Memory.lookup, ha] using this

end Sys2Proof.Machine
end

