-- ==== Sys2Proof/Laws/Regs.lean ====
section
/-! SUPPORT. Reading registers after writing them (10_state.md R14, R19) and the block load of registers (R99). -/

namespace Sys2Proof.Machine

@[simp] theorem readReg_writeReg (s : State) (x r : Reg) (v : Byte) :
    readReg (writeReg s x v) r = if r = x then v else readReg s r := by
  have h : (x.val = r.val) = (r = x) := by simp [Fin.ext_iff, eq_comm]
  simp [readReg, Vector.getElem_set, h]

/-- A read depends on the register file alone. -/
theorem readReg_congr {s t : State} (h : t.regs = s.regs) (r : Reg) : readReg t r = readReg s r := by
  simp [readReg, h]

@[simp] theorem readReg_setPc (s : State) (a : Word) (r : Reg) : readReg (setPc s a) r = readReg s r := rfl
@[simp] theorem readReg_setIdx (s : State) (a : Word) (r : Reg) : readReg (setIdx s a) r = readReg s r := rfl
@[simp] theorem readReg_setDt (s : State) (v : Byte) (r : Reg) : readReg (setDt s v) r = readReg s r := rfl
@[simp] theorem readReg_setSt (s : State) (v : Byte) (r : Reg) : readReg (setSt s v) r = readReg s r := rfl
@[simp] theorem readReg_setFb (s : State) (fb : Framebuffer) (r : Reg) : readReg (setFb s fb) r = readReg s r := rfl
@[simp] theorem readReg_putBytes (s : State) (a : Nat) (bs : List Byte) (r : Reg) :
    readReg (putBytes s a bs) r = readReg s r := rfl
@[simp] theorem readReg_draw (s : State) (r : Reg) : readReg (draw s).2 r = readReg s r := rfl
@[simp] theorem readReg_advance (s : State) (r : Reg) : readReg (advance s) r = readReg s r := rfl
@[simp] theorem readReg_skipIf (s : State) (c : Bool) (r : Reg) : readReg (skipIf c s) r = readReg s r :=
  readReg_congr (skipIf_regs s c) r
@[simp] theorem readReg_endBlock (s : State) (x r : Reg) : readReg (endBlock x s) r = readReg s r :=
  readReg_congr (endBlock_regs s x) r

/-- The result-and-flag write: VF ends as the flag, also when it is the destination (R19). -/
@[simp] theorem readReg_writeResultFlag (s : State) (x r : Reg) (v : Byte × Bool) :
    readReg (writeResultFlag s x v) r = if r = 15 then flagByte v.2 else if r = x then v.1 else readReg s r := by
  simp [writeResultFlag, flagReg]

/-- A block write of registers puts byte i into register k + i and leaves the others. -/
theorem writeRegsFrom_getElem (bs : List Byte) (k : Nat) (v : Vector Byte 16) (r : Nat) (hr : r < 16) :
    (writeRegsFrom k bs v)[r] = if k ≤ r then bs.getD (r - k) v[r] else v[r] := by
  induction bs generalizing k v with
  | nil => simp [writeRegsFrom]
  | cons b bs ih =>
    rw [writeRegsFrom, ih]
    rcases Nat.lt_trichotomy k r with h | h | h
    · rw [if_pos (by omega), if_pos (by omega)]
      have : r - k = (r - (k + 1)) + 1 := by omega
      simp [this, Nat.ne_of_lt h]
    · subst h; simp
    · rw [if_neg (by omega), if_neg (by omega)]
      simp [Nat.ne_of_gt h]

/-- Entry i of the stored registers is V[i]. -/
theorem regsUpTo_getElem (s : State) (x : Reg) (i : Nat) (h : i < (regsUpTo s x).length) :
    (regsUpTo s x)[i] = readReg s ⟨i, by simp [regsUpTo] at h; omega⟩ := by
  simp [regsUpTo, readReg]

@[simp] theorem regsUpTo_length (s : State) (x : Reg) : (regsUpTo s x).length = x.val + 1 := by
  simp [regsUpTo]

end Sys2Proof.Machine
end

