-- ==== Sys2Proof/Laws/Blocks.lean ====
section
/-! SUPPORT. One spec lemma per checked access: when a block of addresses is accepted, what it then reads or changes, and
the first failing address otherwise (20_memory.md R33, R34, R39; 48_bcd_block_transfer.md R96). -/

namespace Sys2Proof.Machine

/-! ## Bytes -/

theorem byteAt_congr {s t : State} (hm : t.mem = s.mem) (hp : t.params = s.params) (a : Nat) :
    byteAt t a = byteAt s a := by
  simp [byteAt, hm, hp]

theorem memRead_congr {s t : State} (h : ∀ a, byteAt t a = byteAt s a) (a : Nat) : memRead t a = memRead s a := by
  simp [memRead, h]

theorem memRead_eq (s : State) (a : Nat) :
    memRead s a = if a < 4096 then .ok (byteAt s a) else .error (.outOfBounds a) := by
  unfold memRead loadFault
  split
  · rename_i h
    split at h
    · cases h; rw [if_neg (by omega)]
    · cases h
  · rename_i h
    split at h
    · cases h
    · rw [if_pos (by omega)]

@[simp] theorem bytesAt_length (s : State) (a n : Nat) : (bytesAt s a n).length = n := by simp [bytesAt]

theorem bytesAt_getElem (s : State) (a n i : Nat) (h : i < (bytesAt s a n).length) :
    (bytesAt s a n)[i] = byteAt s (a + i) := by
  simp [bytesAt]

/-- Reading after a block write: byte i at a + i, every other address as before. -/
theorem byteAt_putBytes (s : State) (a c : Nat) (bs : List Byte) :
    byteAt (putBytes s a bs) c = if a ≤ c then bs.getD (c - a) (byteAt s c) else byteAt s c :=
  Memory.byteAt_setBytes ..

theorem byteAt_putBytes_inside (s : State) (a i : Nat) (bs : List Byte) (h : i < bs.length) :
    byteAt (putBytes s a bs) (a + i) = bs[i] := by
  simp [byteAt_putBytes, h]

theorem byteAt_putBytes_outside (s : State) (a c : Nat) (bs : List Byte) (h : c < a ∨ a + bs.length ≤ c) :
    byteAt (putBytes s a bs) c = byteAt s c := by
  rw [byteAt_putBytes]
  split
  · rw [List.getD_eq_default _ _ (by omega)]
  · rfl

/-! ## The first error of a block -/

theorem firstFault_eq_none (check : Nat → Option Fault) (a n : Nat) :
    firstFault check a n = none ↔ ∀ i < n, check (a + i) = none := by
  induction n generalizing a with
  | zero => simp [firstFault]
  | succ n ih =>
    unfold firstFault
    split
    · rename_i f hf
      simp only [reduceCtorEq, false_iff, not_forall]
      exact ⟨0, by omega, by simp [hf]⟩
    · rename_i hf
      rw [ih]
      constructor
      · intro h i hi
        cases i with
        | zero => exact hf
        | succ i => have := h i (by omega); rwa [Nat.add_assoc, Nat.add_comm 1] at this
      · intro h i hi
        have := h (i + 1) (by omega)
        rwa [← Nat.add_assoc, Nat.add_right_comm] at this

/-- The error reported is that of the lowest failing address (R117). -/
theorem firstFault_eq_some {check : Nat → Option Fault} {a n i : Nat} {f : Fault} (hi : i < n)
    (hbelow : ∀ j < i, check (a + j) = none) (hf : check (a + i) = some f) : firstFault check a n = some f := by
  induction n generalizing a i with
  | zero => omega
  | succ n ih =>
    unfold firstFault
    cases i with
    | zero => simp only [Nat.add_zero] at hf; simp [hf]
    | succ i =>
      have h0 := hbelow 0 (by omega)
      simp only [Nat.add_zero] at h0
      rw [h0]
      refine ih (i := i) (by omega) (fun j hj => ?_) ?_
      · have := hbelow (j + 1) (by omega); rwa [← Nat.add_assoc, Nat.add_right_comm] at this
      · rwa [← Nat.add_assoc, Nat.add_right_comm] at hf

/-- Every error of a block is that of one of its addresses. -/
theorem firstFault_mem {check : Nat → Option Fault} {a n : Nat} {f : Fault} (h : firstFault check a n = some f) :
    ∃ i < n, check (a + i) = some f := by
  induction n generalizing a with
  | zero => simp [firstFault] at h
  | succ n ih =>
    unfold firstFault at h
    split at h
    · rename_i g hg
      exact ⟨0, by omega, by simpa [hg] using h⟩
    · obtain ⟨i, hi, hf⟩ := ih h
      exact ⟨i + 1, by omega, by rwa [← Nat.add_assoc, Nat.add_right_comm]⟩

theorem loadFault_eq_none (a : Nat) : loadFault a = none ↔ a < 4096 := by
  unfold loadFault; split <;> simp <;> omega

/-- A store is accepted inside memory and, under `P_FONT_WRITE = FAULT`, above the font region (R34). -/
theorem storeFault_eq_none (p : Config.Params) (a : Nat) :
    storeFault p a = none ↔ a < 4096 ∧ (p.fontWrite = .fault → 80 ≤ a) := by
  unfold storeFault
  split
  · simp; omega
  · split
    · rename_i h; simp [h.2]; omega
    · rename_i h h'
      simp only [not_and] at h'
      constructor
      · intro _; refine ⟨by omega, fun hf => ?_⟩
        by_contra hlt
        exact h' (by omega) hf
      · simp

theorem loadFault_outOfBounds {a : Nat} {f : Fault} (h : loadFault a = some f) : f = .outOfBounds a := by
  unfold loadFault at h; split at h <;> cases h; rfl

theorem storeFault_outOfBounds {p : Config.Params} {a : Nat} {f : Fault} (h : storeFault p a = some f) :
    f = .outOfBounds a := by
  unfold storeFault at h; split at h
  · cases h; rfl
  · split at h <;> cases h; rfl

/-! ## Block loads and stores -/

/-- A block inside memory loads, and its bytes are those at its addresses. -/
theorem loadBlock_ok (s : State) (a n : Nat) (h : n = 0 ∨ a + n ≤ 4096) :
    loadBlock s a n = .ok (bytesAt s a n) := by
  unfold loadBlock
  rw [(firstFault_eq_none loadFault a n).2 fun i hi => (loadFault_eq_none _).2 (by omega)]

/-- A block that passes 0xFFF fails at its first address above it (R39, R117). -/
theorem loadBlock_error (s : State) (a n : Nat) (h : n ≠ 0) (h' : 4096 < a + n) :
    loadBlock s a n = .error (.outOfBounds (max a 4096)) := by
  unfold loadBlock
  have : firstFault loadFault a n = some (.outOfBounds (max a 4096)) := by
    refine firstFault_eq_some (i := max a 4096 - a) (by omega) (fun j hj => (loadFault_eq_none _).2 (by omega)) ?_
    rw [show a + (max a 4096 - a) = max a 4096 by omega]
    simp [loadFault, show 0xFFF < max a 4096 by omega]
  rw [this]

/-- Every case of a block load. -/
theorem loadBlock_cases (s : State) (a n : Nat) :
    ((n = 0 ∨ a + n ≤ 4096) ∧ loadBlock s a n = .ok (bytesAt s a n)) ∨
    (n ≠ 0 ∧ 4096 < a + n ∧ loadBlock s a n = .error (.outOfBounds (max a 4096))) := by
  by_cases h : n = 0 ∨ a + n ≤ 4096
  · exact .inl ⟨h, loadBlock_ok s a n h⟩
  · exact .inr ⟨by omega, by omega, loadBlock_error s a n (by omega) (by omega)⟩

/-- A block inside memory, and above the font region where that is protected, is stored. -/
theorem storeBlock_ok (s : State) (a : Nat) (bs : List Byte) (h : bs = [] ∨ a + bs.length ≤ 4096)
    (hf : s.params.fontWrite = .fault → bs = [] ∨ 80 ≤ a) : storeBlock s a bs = .ok (putBytes s a bs) := by
  unfold storeBlock
  rw [(firstFault_eq_none _ _ _).2 fun i hi => (storeFault_eq_none _ _).2 ⟨?_, fun hp => ?_⟩]
  · rcases h with rfl | h
    · simp at hi
    · omega
  · rcases hf hp with rfl | h
    · simp at hi
    · omega

/-- A stored block is `putBytes`, inside memory, and above the font region where that is protected. -/
theorem storeBlock_inv {s t : State} {a : Nat} {bs : List Byte} (h : storeBlock s a bs = .ok t) :
    t = putBytes s a bs ∧ (bs = [] ∨ a + bs.length ≤ 4096) ∧
      (s.params.fontWrite = .fault → bs = [] ∨ 80 ≤ a) := by
  unfold storeBlock at h
  split at h
  · cases h
  · rename_i hn
    cases h
    rw [firstFault_eq_none] at hn
    cases bs with
    | nil => simp
    | cons b bs =>
      have h0 := (storeFault_eq_none _ _).1 (hn 0 (by simp))
      have hl := (storeFault_eq_none _ _).1 (hn bs.length (by simp))
      exact ⟨rfl, .inr (by simp only [List.length_cons]; omega), fun hp => .inr (by have := h0.2 hp; omega)⟩

/-- A store of a protected block fails at its first address; one that passes 0xFFF at its first address above it. -/
theorem storeBlock_error (s : State) (a : Nat) (bs : List Byte) (hne : bs ≠ []) :
    (s.params.fontWrite = .fault → a < 80 → storeBlock s a bs = .error (.outOfBounds a)) ∧
    (4096 < a + bs.length → (s.params.fontWrite = .fault → 80 ≤ a) →
      storeBlock s a bs = .error (.outOfBounds (max a 4096))) := by
  have hpos : 0 < bs.length := List.length_pos_iff.2 hne
  constructor
  · intro hp ha
    have : firstFault (storeFault s.params) a bs.length = some (.outOfBounds a) :=
      firstFault_eq_some (i := 0) hpos (by simp)
        (by simp [storeFault, hp, show ¬ 0xFFF < a by omega, show a ≤ 0x4F by omega])
    simp [storeBlock, this]
  · intro hlen hp
    have : firstFault (storeFault s.params) a bs.length = some (.outOfBounds (max a 4096)) := by
      refine firstFault_eq_some (i := max a 4096 - a) (by omega) (fun j hj => (storeFault_eq_none _ _).2
        ⟨by omega, fun hf => by have := hp hf; omega⟩) ?_
      rw [show a + (max a 4096 - a) = max a 4096 by omega]
      simp [storeFault, show 0xFFF < max a 4096 by omega]
    simp [storeBlock, this]

/-- Every error of a block store is an `OutOfBounds`. -/
theorem storeBlock_error_inv {s : State} {a : Nat} {bs : List Byte} {f : Fault} (h : storeBlock s a bs = .error f) :
    ∃ i < bs.length, f = .outOfBounds (a + i) := by
  unfold storeBlock at h
  split at h
  · rename_i g hg
    cases h
    obtain ⟨i, hi, hf⟩ := firstFault_mem hg
    exact ⟨i, hi, storeFault_outOfBounds hf⟩
  · cases h

end Sys2Proof.Machine
end

