-- ==== Sys2Proof/Laws/Decode.lean ====
section
/-! SUPPORT. The fields of the words that the formats of 30_encoding.md R47 build, and the dispatch. -/

namespace Sys2Proof

@[simp] theorem regOf_nibbleOf (x : Reg) : regOf (nibbleOf x) = x := rfl
@[simp] theorem nibbleOf_regOf (v : BitVec 4) : nibbleOf (regOf v) = v := rfl

section
variable (c : BitVec 4) (x y : Reg) (n : BitVec 4) (kk : Byte) (nnn : Addr)

theorem fieldsOf_formatA_c : (fieldsOf (formatA c nnn)).c = c := by
  show (c ++ nnn : BitVec (4 + 12)).extractLsb' 12 4 = c
  apply BitVec.eq_of_getLsbD_eq
  intro i hi
  simp only [BitVec.getLsbD_extractLsb', BitVec.getLsbD_append]
  interval_cases i <;> simp

theorem fieldsOf_formatA_nnn : (fieldsOf (formatA c nnn)).nnn = nnn := by
  show (c ++ nnn : BitVec (4 + 12)).extractLsb' 0 12 = nnn
  apply BitVec.eq_of_getLsbD_eq
  intro i hi
  simp only [BitVec.getLsbD_extractLsb', BitVec.getLsbD_append]
  interval_cases i <;> simp

theorem fieldsOf_formatXK_c : (fieldsOf (formatXK c x kk)).c = c := by
  show ((c ++ nibbleOf x : BitVec (4 + 4)) ++ kk : BitVec (4 + 4 + 8)).extractLsb' 12 4 = c
  apply BitVec.eq_of_getLsbD_eq
  intro i hi
  simp only [BitVec.getLsbD_extractLsb', BitVec.getLsbD_append]
  interval_cases i <;> simp

theorem fieldsOf_formatXK_x : (fieldsOf (formatXK c x kk)).x = nibbleOf x := by
  show ((c ++ nibbleOf x : BitVec (4 + 4)) ++ kk : BitVec (4 + 4 + 8)).extractLsb' 8 4 = nibbleOf x
  apply BitVec.eq_of_getLsbD_eq
  intro i hi
  simp only [BitVec.getLsbD_extractLsb', BitVec.getLsbD_append]
  interval_cases i <;> simp

theorem fieldsOf_formatXK_kk : (fieldsOf (formatXK c x kk)).kk = kk := by
  show ((c ++ nibbleOf x : BitVec (4 + 4)) ++ kk : BitVec (4 + 4 + 8)).extractLsb' 0 8 = kk
  apply BitVec.eq_of_getLsbD_eq
  intro i hi
  simp only [BitVec.getLsbD_extractLsb', BitVec.getLsbD_append]
  interval_cases i <;> simp

theorem fieldsOf_formatXYN_c : (fieldsOf (formatXYN c x y n)).c = c := by
  show ((c ++ nibbleOf x : BitVec (4 + 4)) ++ (nibbleOf y ++ n : BitVec (4 + 4)) : BitVec (4 + 4 + (4 + 4))).extractLsb' 12 4 = c
  apply BitVec.eq_of_getLsbD_eq
  intro i hi
  simp only [BitVec.getLsbD_extractLsb', BitVec.getLsbD_append]
  interval_cases i <;> simp

theorem fieldsOf_formatXYN_x : (fieldsOf (formatXYN c x y n)).x = nibbleOf x := by
  show ((c ++ nibbleOf x : BitVec (4 + 4)) ++ (nibbleOf y ++ n : BitVec (4 + 4)) : BitVec (4 + 4 + (4 + 4))).extractLsb' 8 4 = nibbleOf x
  apply BitVec.eq_of_getLsbD_eq
  intro i hi
  simp only [BitVec.getLsbD_extractLsb', BitVec.getLsbD_append]
  interval_cases i <;> simp

theorem fieldsOf_formatXYN_y : (fieldsOf (formatXYN c x y n)).y = nibbleOf y := by
  show ((c ++ nibbleOf x : BitVec (4 + 4)) ++ (nibbleOf y ++ n : BitVec (4 + 4)) : BitVec (4 + 4 + (4 + 4))).extractLsb' 4 4 = nibbleOf y
  apply BitVec.eq_of_getLsbD_eq
  intro i hi
  simp only [BitVec.getLsbD_extractLsb', BitVec.getLsbD_append]
  interval_cases i <;> simp

theorem fieldsOf_formatXYN_n : (fieldsOf (formatXYN c x y n)).n = n := by
  show ((c ++ nibbleOf x : BitVec (4 + 4)) ++ (nibbleOf y ++ n : BitVec (4 + 4)) : BitVec (4 + 4 + (4 + 4))).extractLsb' 0 4 = n
  apply BitVec.eq_of_getLsbD_eq
  intro i hi
  simp only [BitVec.getLsbD_extractLsb', BitVec.getLsbD_append]
  interval_cases i <;> simp

end

/-- A word is the high byte before the low byte. -/
theorem Word.ofBytes_hi_lo (w : Word) : Word.ofBytes w.hiByte w.loByte = w := by
  apply BitVec.eq_of_getLsbD_eq
  intro i hi
  simp only [Word.ofBytes, Word.hiByte, Word.loByte, BitVec.getLsbD_append, BitVec.getLsbD_extractLsb']
  split
  · simp [*]
  · have h : i - 8 < 8 := by omega
    have h' : 8 + (i - 8) = i := by omega
    simp [h, h']

/-- Dispatch recognises an instruction exactly when the word decodes to it and the parameters admit it (R49, R58). -/
theorem recognise_eq_some (p : Config.Params) (w : Word) (i : Instr) :
    recognise p w = some i ↔ decodeWord w = .ok i ∧ i.wellFormed p = true := by
  unfold recognise
  cases h : decodeWord w with
  | error r => simp
  | ok j =>
    by_cases hj : j.wellFormed p = true
    · simp [hj]; rintro rfl; exact hj
    · simp [hj]; rintro rfl; simpa using hj

/-- The table word's two bytes decode as the word. -/
theorem decodeTableWord_eq (nbits w : Nat) (i : Instr) :
    decodeTableWord nbits w = some i ↔ decodeWord (tableWord nbits w) = .ok i := by
  simp only [decodeTableWord, wordBytes, decodeBytes, Word.ofBytes_hi_lo]
  cases decodeWord (tableWord nbits w) <;> simp

end Sys2Proof
end

