-- ==== Sys2Proof/Laws/Display.lean ====
section
/-! SUPPORT. Drawing a sprite pixel by pixel toggles exactly the pixels that a 1 bit of the sprite covers, and reports a
collision exactly when one of them was set (47_display.md R93 to R95). -/

namespace Sys2Proof.Machine

theorem Framebuffer.pixel_toggle (fb : Framebuffer) (y y' : Fin 32) (x x' : Fin 64) :
    (fb.toggle y x).pixel y' x' = if y' = y ∧ x' = x then !fb.pixel y x else fb.pixel y' x' := by
  by_cases hy : y' = y
  · subst hy
    by_cases hx : x' = x
    · subst hx; simp [Framebuffer.pixel, Framebuffer.toggle]
    · have : x.val ≠ x'.val := fun h => hx (Fin.ext h.symm)
      simp [Framebuffer.pixel, Framebuffer.toggle, hx, this]
  · have : y.val ≠ y'.val := fun h => hy (Fin.ext h.symm)
    simp [Framebuffer.pixel, Framebuffer.toggle, hy, this]

theorem Framebuffer.pixel_clear (y : Fin 32) (x : Fin 64) : Framebuffer.clear.pixel y x = false := by
  simp [Framebuffer.pixel, Framebuffer.clear]

/-- Two framebuffers with the same pixels are the same. -/
theorem Framebuffer.ext_pixel {fb fb' : Framebuffer} (h : ∀ y x, fb.pixel y x = fb'.pixel y x) : fb = fb' := by
  apply Vector.ext
  intro y hy
  apply Vector.ext
  intro x hx
  exact h ⟨y, hy⟩ ⟨x, hx⟩

/-- What a stage of a draw does: it toggles the pixels in `S` and reports whether one of them was set. -/
def Draws (k k' : Canvas) (S : Fin 32 → Fin 64 → Prop) : Prop :=
  (∀ y x, k'.1.pixel y x ≠ k.1.pixel y x ↔ S y x) ∧
  (k'.2 = true ↔ k.2 = true ∨ ∃ y x, S y x ∧ k.1.pixel y x = true)

theorem Draws.refl (k : Canvas) : Draws k k (fun _ _ => False) := by simp [Draws]

theorem Draws.congr {k k' : Canvas} {S S' : Fin 32 → Fin 64 → Prop} (h : Draws k k' S)
    (e : ∀ y x, S y x ↔ S' y x) : Draws k k' S' := by
  have : S = S' := funext fun y => funext fun x => propext (e y x)
  exact this ▸ h

/-- Two stages that share no pixel make one. -/
theorem Draws.trans {k k' k'' : Canvas} {S T : Fin 32 → Fin 64 → Prop} (h : Draws k k' S) (h' : Draws k' k'' T)
    (disj : ∀ y x, S y x → ¬ T y x) : Draws k k'' (fun y x => S y x ∨ T y x) := by
  have same : ∀ y x, T y x → k'.1.pixel y x = k.1.pixel y x := fun y x ht => by
    by_contra hne; exact disj y x ((h.1 y x).1 hne) ht
  constructor
  · intro y x
    by_cases hs : S y x
    · have ht : k''.1.pixel y x = k'.1.pixel y x := by
        by_contra hne; exact disj y x hs ((h'.1 y x).1 hne)
      simp only [hs, true_or, iff_true, ht]
      exact (h.1 y x).2 hs
    · have e : k'.1.pixel y x = k.1.pixel y x := by
        by_contra hne; exact hs ((h.1 y x).1 hne)
      rw [← e]
      simpa [hs] using h'.1 y x
  · rw [h'.2, h.2, or_assoc]
    refine or_congr_right ⟨?_, ?_⟩
    · rintro (⟨y, x, hs, hp⟩ | ⟨y, x, ht, hp⟩)
      · exact ⟨y, x, .inl hs, hp⟩
      · exact ⟨y, x, .inr ht, same y x ht ▸ hp⟩
    · rintro ⟨y, x, hs | ht, hp⟩
      · exact .inl ⟨y, x, hs, hp⟩
      · exact .inr ⟨y, x, ht, (same y x ht).symm ▸ hp⟩

/-- One pixel: toggled at its wrapped place (R94). -/
theorem drawPixel_draws (px py r c : Nat) (k : Canvas) :
    Draws k (drawPixel px py r c k) (fun y x => x.val = (px + c) % 64 ∧ y.val = (py + r) % 32) := by
  have hx : ∀ x : Fin 64, x = Fin.ofNat 64 (px + c) ↔ x.val = (px + c) % 64 := fun x => by simp [Fin.ext_iff]
  have hy : ∀ y : Fin 32, y = Fin.ofNat 32 (py + r) ↔ y.val = (py + r) % 32 := fun y => by simp [Fin.ext_iff]
  constructor
  · intro y x
    simp only [drawPixel, Framebuffer.pixel_toggle, ← hx, ← hy]
    by_cases h : y = Fin.ofNat 32 (py + r) ∧ x = Fin.ofNat 64 (px + c)
    · obtain ⟨rfl, rfl⟩ := h; simp
    · rw [if_neg h]; simpa [and_comm] using h
  · simp only [drawPixel, Bool.or_eq_true, ← hx, ← hy]
    refine or_congr_right ⟨fun h => ⟨_, _, ⟨rfl, rfl⟩, h⟩, ?_⟩
    rintro ⟨y, x, ⟨rfl, rfl⟩, h⟩; exact h

/-- The columns of one row, in any list of distinct columns below 64. -/
theorem drawColumns_draws (b : Byte) (px py r : Nat) (cs : List Nat) (hd : cs.Nodup) (hlt : ∀ c ∈ cs, c < 64)
    (k : Canvas) :
    Draws k (cs.foldl (fun k c => if b.getLsbD (7 - c) then drawPixel px py r c k else k) k)
      (fun y x => ∃ c ∈ cs, b.getLsbD (7 - c) = true ∧ x.val = (px + c) % 64 ∧ y.val = (py + r) % 32) := by
  induction cs generalizing k with
  | nil => exact (Draws.refl k).congr (by simp)
  | cons c cs ih =>
    obtain ⟨hc, hd⟩ := List.nodup_cons.1 hd
    have ih := fun k => ih hd (fun c hc => hlt c (by simp [hc])) k
    rw [List.foldl_cons]
    by_cases hb : b.getLsbD (7 - c) = true
    · rw [if_pos hb]
      refine ((drawPixel_draws px py r c k).trans (ih _) ?_).congr ?_
      · rintro y x ⟨hx, -⟩ ⟨c', hc', -, hx', -⟩
        have h1 := hlt c (by simp)
        have h2 := hlt c' (by simp [hc'])
        have : c = c' := by omega
        exact hc (this ▸ hc')
      · simp [hb]
    · rw [if_neg hb]
      exact (ih k).congr (by simp [hb])

/-- One sprite row (R92). -/
theorem drawRow_draws (b : Byte) (px py r : Nat) (k : Canvas) :
    Draws k (drawRow b px py r k)
      (fun y x => ∃ c < 8, b.getLsbD (7 - c) = true ∧ x.val = (px + c) % 64 ∧ y.val = (py + r) % 32) :=
  (drawColumns_draws b px py r (List.range 8) List.nodup_range (by simp; omega) k).congr (by simp)

/-- The rows of a sprite from row r on, at most 32 in all. -/
theorem drawRows_draws_from (px py : Nat) (rows : List Byte) (r : Nat) (h : r + rows.length ≤ 32) (k : Canvas) :
    Draws k (drawRows px py r rows k) (fun y x => ∃ (i : Nat) (_ : i < rows.length) (c : Nat), c < 8 ∧
      rows[i].getLsbD (7 - c) = true ∧ x.val = (px + c) % 64 ∧ y.val = (py + (r + i)) % 32) := by
  induction rows generalizing r k with
  | nil => exact (Draws.refl k).congr (by simp)
  | cons b bs ih =>
    simp only [List.length_cons] at h
    rw [drawRows]
    refine ((drawRow_draws b px py r k).trans (ih (r + 1) (by omega) _) ?_).congr ?_
    · rintro y x ⟨c, -, -, -, hy⟩ ⟨i, hi, c', -, -, -, hy'⟩
      omega
    · intro y x
      constructor
      · rintro (⟨c, hc, hb, hx, hy⟩ | ⟨i, hi, c, hc, hb, hx, hy⟩)
        · exact ⟨0, by simp, c, hc, by simpa using hb, hx, by simpa using hy⟩
        · exact ⟨i + 1, by simpa using hi, c, hc, by simpa using hb, hx, by
            rw [show r + (i + 1) = r + 1 + i by omega]; exact hy⟩
      · rintro ⟨i, hi, c, hc, hb, hx, hy⟩
        cases i with
        | zero => exact .inl ⟨c, hc, by simpa using hb, hx, by simpa using hy⟩
        | succ i => exact .inr ⟨i, by simpa using hi, c, hc, by simpa using hb, hx, by
            rw [show r + 1 + i = r + (i + 1) by omega]; exact hy⟩

/-- A whole sprite of at most 32 rows: exactly the covered pixels are toggled, and the flag is their collision (R95). -/
theorem drawRows_draws (px py : Nat) (rows : List Byte) (h : rows.length ≤ 32) (k : Canvas) :
    Draws k (drawRows px py 0 rows k) (SpriteCovers rows px py) :=
  (drawRows_draws_from px py rows 0 (by omega) k).congr (by simp [SpriteCovers])

end Sys2Proof.Machine
end

