-- ==== Sys2Proof/Laws/Keys.lean ====
section
/-! SUPPORT. The lowest pressed key (60_exceptions.md R131) and hex-digit operands (49_timer_key.md R104). -/

namespace Sys2Proof.Machine

/-- No key is pressed exactly when the query answers none. -/
theorem lowestPressed_eq_none (keys : Vector Bool 16) : lowestPressed keys = none ↔ ∀ k : Reg, keys[k] = false := by
  simp [lowestPressed]

/-- The query answers a pressed key below which none is pressed. -/
theorem lowestPressed_eq_some (keys : Vector Bool 16) (k : Reg) :
    lowestPressed keys = some k ↔ keys[k] = true ∧ ∀ j < k, keys[j] = false := by
  simp only [lowestPressed, List.find?_eq_some_iff_getElem, List.getElem_finRange, List.length_finRange]
  constructor
  · rintro ⟨hk, i, hi, rfl, hmin⟩
    refine ⟨hk, fun j hj => ?_⟩
    have := hmin j.val (by simpa [Fin.lt_def] using hj)
    simpa using this
  · rintro ⟨hk, hmin⟩
    refine ⟨hk, k.val, k.isLt, rfl, fun j hj => ?_⟩
    have := hmin ⟨j, by omega⟩ (by simpa [Fin.lt_def] using hj)
    simpa using this

/-- Vx as a hex digit: its value at or below 0xF. -/
theorem hexDigitOperand_ok (s : State) (x : Reg) (h : (readReg s x).toNat < 16) :
    hexDigitOperand s x = .ok ⟨(readReg s x).toNat, h⟩ := by
  simp [hexDigitOperand, h]

theorem hexDigitOperand_error (s : State) (x : Reg) (h : 16 ≤ (readReg s x).toNat) :
    hexDigitOperand s x = .error (.outOfBounds (readReg s x).toNat) := by
  simp [hexDigitOperand, show ¬ (readReg s x).toNat < 16 by omega]

/-- Every case of a hex-digit operand. -/
theorem hexDigitOperand_cases (s : State) (x : Reg) :
    (∃ h : (readReg s x).toNat < 16, hexDigitOperand s x = .ok ⟨(readReg s x).toNat, h⟩) ∨
    (16 ≤ (readReg s x).toNat ∧ hexDigitOperand s x = .error (.outOfBounds (readReg s x).toNat)) := by
  by_cases h : (readReg s x).toNat < 16
  · exact .inl ⟨h, hexDigitOperand_ok s x h⟩
  · exact .inr ⟨by omega, hexDigitOperand_error s x (by omega)⟩

end Sys2Proof.Machine
end

