-- ==== Sys2Proof/Laws/Stack.lean ====
section
/-! SUPPORT. Push and pop (10_state.md R25). -/

namespace Sys2Proof.Machine

/-- A push below capacity: the value at STACK[SP], SP up by one, all else as before. -/
theorem push_ok (s : State) (v : Word) (h : s.sp.val < 16) :
    push s v = .ok { s with stack := s.stack.set s.sp.val v, sp := ⟨s.sp.val + 1, by omega⟩ } := by
  simp [push, h]

theorem push_full (s : State) (v : Word) (h : s.sp = 16) : push s v = .error (.stackOverflow (s.pc - 2)) := by
  simp [push, h, instrAddr]

/-- A pop of a non-empty stack: STACK[SP-1], SP down by one, all else as before. -/
theorem pop_ok (s : State) (h : s.sp.val ≠ 0) :
    pop s = .ok (s.stack[s.sp.val - 1], { s with sp := ⟨s.sp.val - 1, by omega⟩ }) := by
  simp [pop, h]

theorem pop_empty (s : State) (h : s.sp = 0) : pop s = .error (.stackUnderflow (s.pc - 2)) := by
  simp [pop, h, instrAddr]

/-- Every case of a push. -/
theorem push_cases (s : State) (v : Word) :
    (∃ h : s.sp.val < 16,
      push s v = .ok { s with stack := s.stack.set s.sp.val v, sp := ⟨s.sp.val + 1, by omega⟩ }) ∨
    (s.sp = 16 ∧ push s v = .error (.stackOverflow (s.pc - 2))) := by
  by_cases h : s.sp.val < 16
  · exact .inl ⟨h, push_ok s v h⟩
  · have : s.sp = 16 := Fin.ext (by have := s.sp.isLt; simp; omega)
    exact .inr ⟨this, push_full s v this⟩

/-- Every case of a pop. -/
theorem pop_cases (s : State) :
    (s.sp.val ≠ 0 ∧ pop s = .ok (s.stack[s.sp.val - 1], { s with sp := ⟨s.sp.val - 1, by omega⟩ })) ∨
    (s.sp = 0 ∧ pop s = .error (.stackUnderflow (s.pc - 2))) := by
  by_cases h : s.sp.val = 0
  · have : s.sp = 0 := Fin.ext h
    exact .inr ⟨this, pop_empty s this⟩
  · exact .inl ⟨h, pop_ok s h⟩

end Sys2Proof.Machine
end

