-- ==== Sys2Proof/Laws/Step.lean ====
section
/-! SUPPORT. What a fetch and a step can do, said once (30_encoding.md R49, R50). -/

namespace Sys2Proof.Machine

/-- A fetch below 0xFFF: the two bytes at PC, big-endian. -/
theorem fetch_ok (s : State) (h : s.pc.toNat < 0xFFF) :
    fetch s = .ok (Word.ofBytes (byteAt s s.pc.toNat) (byteAt s (s.pc.toNat + 1))) := by
  simp [fetch, memRead_eq, show s.pc.toNat < 4096 by omega, show s.pc.toNat + 1 < 4096 by omega]

/-- A fetch at or above 0xFFF: the first byte address outside memory. -/
theorem fetch_error (s : State) (h : 0xFFF ≤ s.pc.toNat) :
    fetch s = .error (.outOfBounds (max s.pc.toNat 0x1000)) := by
  by_cases h' : s.pc.toNat < 4096
  · have e : s.pc.toNat = 4095 := by omega
    simp [fetch, memRead_eq, e]
  · simp [fetch, memRead_eq, h', show max s.pc.toNat 4096 = s.pc.toNat by omega]

/-- Every fetch that answers a word read it inside memory. -/
theorem fetch_inv {s : State} {w : Word} (h : fetch s = .ok w) : s.pc.toNat < 0xFFF := by
  by_contra hn
  rw [fetch_error s (by omega)] at h
  cases h

/-- Every case of a step: a fetch error, an unrecognised word, or the recognised instruction on the advanced state. -/
theorem step_cases (s : State) :
    (0xFFF ≤ s.pc.toNat ∧ step s = .fault (.outOfBounds (max s.pc.toNat 0x1000))) ∨
    ∃ w, s.pc.toNat < 0xFFF ∧ fetch s = .ok w ∧
      ((recognise s.params w = none ∧ step s = .fault (.unimplementedOpcode w)) ∨
        ∃ i, recognise s.params w = some i ∧ step s = exec i (advance s)) := by
  by_cases h : s.pc.toNat < 0xFFF
  · refine .inr ⟨_, h, fetch_ok s h, ?_⟩
    cases hr : recognise s.params (Word.ofBytes (byteAt s s.pc.toNat) (byteAt s (s.pc.toNat + 1))) with
    | none => exact .inl ⟨rfl, by simp [step, fetch_ok s h, hr, raise]⟩
    | some i => exact .inr ⟨i, rfl, by simp [step, fetch_ok s h, hr]⟩
  · exact .inl ⟨by omega, by simp [step, fetch_error s (by omega), raise]⟩

/-- A step that answers a next state ran an instruction, from inside memory, on the advanced state. -/
theorem step_next {s t : State} (h : step s = .next t) :
    ∃ i, s.pc.toNat < 0xFFF ∧ exec i (advance s) = .next t := by
  rcases step_cases s with ⟨-, e⟩ | ⟨w, hpc, -, ⟨-, e⟩ | ⟨i, -, e⟩⟩
  · rw [e] at h; cases h
  · rw [e] at h; cases h
  · exact ⟨i, hpc, e ▸ h⟩

/-- Where the next word lies, `withFetchWord` makes the fetch answer it. -/
theorem fetch_withFetchWord (s : State) (nbits w : Nat) (h : s.pc.toNat < 0xFFF) :
    fetch (s.withFetchWord nbits w) = .ok (tableWord nbits w) := by
  have e : s.withFetchWord nbits w = putBytes s s.pc.toNat (wordBytes (tableWord nbits w)) := by
    simp [State.withFetchWord, h]
  rw [e, fetch_ok _ (by simpa using h)]
  simp [byteAt_putBytes, wordBytes, Word.ofBytes_hi_lo]

end Sys2Proof.Machine
end

