-- ==== Sys2Proof/Laws/Exec.lean ====
section
/-! SUPPORT. Everything an instruction can do, said once: the next states (`exec_next`) and the errors
(`exec_fault`). Claims about all instructions are case analyses of these. -/

namespace Sys2Proof.Machine

/-- The next states of an instruction, by shape of effect; `s.pc` is the advanced PC. -/
inductive Effect (i : Instr) (s : State) : State → Prop where
  | none (h : i = .nop) : Effect i s s
  | clear (h : i = .cls) : Effect i s (setFb s Framebuffer.clear)
  | ret (h : i = .ret) (k : Fin 16) (hk : s.sp.val = k.val + 1) :
      Effect i s { s with sp := ⟨k.val, by omega⟩, pc := s.stack[k] }
  | call (nnn : Addr) (h : i = .call nnn) (k : Fin 16) (hk : s.sp.val = k.val) :
      Effect i s { s with stack := s.stack.set k.val s.pc, sp := ⟨k.val + 1, by omega⟩, pc := addrOperand nnn }
  | pc (a : Word) (h : a = s.pc ∨ a = s.pc + 2 ∨ a = s.pc - 2 ∨ a.toNat ≤ 0x10FE) : Effect i s (setPc s a)
  | reg (x : Reg) (v : Byte) (h : writesReg i x = true) : Effect i s (writeReg s x v)
  | regFlag (x : Reg) (v : Byte × Bool) (h : writesReg i x = true) (hf : writesReg i 15 = true) :
      Effect i s (writeResultFlag s x v)
  | rnd (x : Reg) (kk : Byte) (h : i = .rnd x kk) : Effect i s (rndWith (draw s).1 x kk (draw s).2)
  | idx (a : Word) (h : (∃ nnn, i = .ldI nnn) ∨ (∃ x, i = .addI x) ∨ ∃ x, i = .ldF x) : Effect i s (setIdx s a)
  | drw (x y : Reg) (n : Fin 16) (fb : Framebuffer) (v : Byte) (h : i = .drw x y n) :
      Effect i s (writeReg (setFb s fb) 15 v)
  | dt (x : Reg) (h : i = .ldDtVx x) : Effect i s (setDt s (readReg s x))
  | st (x : Reg) (h : i = .ldStVx x) : Effect i s (setSt s (readReg s x))
  | bcd (x : Reg) (h : i = .ldB x) (t : State)
      (hs : storeBlock s (idxBase s) (bcdDigits (readReg s x)) = .ok t) : Effect i s t
  | store (x : Reg) (h : i = .ldMemVx x) (t : State) (hs : storeBlock s (idxBase s) (regsUpTo s x) = .ok t) :
      Effect i s (endBlock x t)
  | load (x : Reg) (h : i = .ldVxMem x) (bs : List Byte) (hl : bs.length = x.val + 1)
      (hs : loadBlock s (idxBase s) (x.val + 1) = .ok bs) :
      Effect i s (endBlock x { s with regs := writeRegsFrom 0 bs s.regs })

theorem skipIf_effect (i : Instr) (s : State) (c : Bool) : Effect i s (skipIf c s) := by
  cases c
  · exact .pc s.pc (.inl rfl)
  · exact .pc (s.pc + 2) (.inr (.inl rfl))

theorem addrOperand_toNat (nnn : Addr) : (addrOperand nnn).toNat = nnn.toNat := by
  have := nnn.isLt
  simp [addrOperand]; omega

/-- An instruction that answers a next state had one of the effects. -/
theorem exec_next {i : Instr} {s t : State} (h : exec i s = .next t) : Effect i s t := by
  cases i
  case nop => cases h; exact .none rfl
  case cls => cases h; exact .clear rfl
  case ret =>
    simp only [exec, execRet] at h
    rcases pop_cases s with ⟨h0, e⟩ | ⟨-, e⟩ <;> rw [e] at h <;> cases h
    exact .ret rfl ⟨s.sp.val - 1, by omega⟩ (by simp; omega)
  case call nnn =>
    simp only [exec, execCall] at h
    rcases push_cases s s.pc with ⟨h0, e⟩ | ⟨-, e⟩ <;> rw [e] at h <;> cases h
    exact .call nnn rfl ⟨s.sp.val, h0⟩ rfl
  case jp nnn => cases h; exact .pc _ (.inr (.inr (.inr (by rw [addrOperand_toNat]; omega))))
  case jpV0 nnn =>
    cases h
    refine .pc _ (.inr (.inr (.inr ?_)))
    have := nnn.isLt
    have := (readReg s 0).isLt
    rw [BitVec.toNat_add, addrOperand_toNat]
    simp; omega
  case seByte x kk => cases h; exact skipIf_effect ..
  case sneByte x kk => cases h; exact skipIf_effect ..
  case seReg x y => cases h; exact skipIf_effect ..
  case sneReg x y => cases h; exact skipIf_effect ..
  case skp x =>
    simp only [exec, execSkp] at h
    rcases hexDigitOperand_cases s x with ⟨_, e⟩ | ⟨-, e⟩ <;> rw [e] at h <;> cases h
    exact skipIf_effect ..
  case sknp x =>
    simp only [exec, execSknp] at h
    rcases hexDigitOperand_cases s x with ⟨_, e⟩ | ⟨-, e⟩ <;> rw [e] at h <;> cases h
    exact skipIf_effect ..
  case ldVxK x =>
    simp only [exec, execLdVxK] at h
    split at h <;> cases h
    · exact .reg x _ (by simp [writesReg])
    · exact .pc _ (.inr (.inr (.inl rfl)))
  case rnd x kk => cases h; exact .rnd x kk rfl
  case ldI nnn => cases h; exact .idx _ (.inl ⟨_, rfl⟩)
  case addI x => cases h; exact .idx _ (.inr (.inl ⟨_, rfl⟩))
  case ldF x =>
    simp only [exec, execLdF] at h
    rcases hexDigitOperand_cases s x with ⟨_, e⟩ | ⟨-, e⟩ <;> rw [e] at h <;> cases h
    exact .idx _ (.inr (.inr ⟨_, rfl⟩))
  case drw x y n =>
    simp only [exec, execDrw] at h
    rcases loadBlock_cases s (idxBase s) n.val with ⟨-, e⟩ | ⟨-, -, e⟩ <;> rw [e] at h <;> cases h
    exact .drw x y n _ _ rfl
  case ldDtVx x => cases h; exact .dt x rfl
  case ldStVx x => cases h; exact .st x rfl
  case ldB x =>
    simp only [exec, execLdB] at h
    cases e : storeBlock s (idxBase s) (bcdDigits (readReg s x)) <;> rw [e] at h <;> cases h
    exact .bcd x rfl _ e
  case ldMemVx x =>
    simp only [exec, execLdMemVx] at h
    cases e : storeBlock s (idxBase s) (regsUpTo s x) <;> rw [e] at h <;> cases h
    exact .store x rfl _ e
  case ldVxMem x =>
    simp only [exec, execLdVxMem] at h
    rcases loadBlock_cases s (idxBase s) (x.val + 1) with ⟨-, e⟩ | ⟨-, -, e⟩ <;> rw [e] at h <;> cases h
    exact .load x rfl _ (by simp) e
  all_goals cases h
  case ldByte | ldReg | orReg | andReg | xorReg | ldVxDt => exact .reg _ _ (by simp [writesReg])
  case addByte | addReg | subReg | subn | shr | shl => exact .regFlag _ _ (by simp [writesReg]) (by simp [writesReg])

/-- The errors an instruction can raise (60_exceptions.md R109 to R111). -/
inductive FaultCause (i : Instr) (s : State) : Fault → Prop where
  | bounds (a : Nat) : FaultCause i s (.outOfBounds a)
  | full (nnn : Addr) (h : i = .call nnn) (hs : s.sp = 16) : FaultCause i s (.stackOverflow (s.pc - 2))
  | empty (h : i = .ret) (hs : s.sp = 0) : FaultCause i s (.stackUnderflow (s.pc - 2))

theorem hexDigitOperand_fault {s : State} {x : Reg} {f : Fault} (h : hexDigitOperand s x = .error f) :
    ∃ a, f = .outOfBounds a := by
  rcases hexDigitOperand_cases s x with ⟨_, e⟩ | ⟨-, e⟩ <;> rw [e] at h <;> cases h
  exact ⟨_, rfl⟩

theorem loadBlock_fault {s : State} {a n : Nat} {f : Fault} (h : loadBlock s a n = .error f) :
    ∃ a, f = .outOfBounds a := by
  rcases loadBlock_cases s a n with ⟨-, e⟩ | ⟨-, -, e⟩ <;> rw [e] at h
  · cases h
  · injection h with h; exact ⟨_, h.symm⟩

/-- An instruction that raises an error did so for one of the causes. -/
theorem exec_fault {i : Instr} {s : State} {f : Fault} (h : exec i s = .fault f) : FaultCause i s f := by
  have bounds : (∃ a, f = .outOfBounds a) → FaultCause i s f := by rintro ⟨a, rfl⟩; exact .bounds a
  cases i
  case ret =>
    simp only [exec, execRet] at h
    rcases pop_cases s with ⟨-, e⟩ | ⟨h0, e⟩ <;> rw [e] at h <;> cases h
    exact .empty rfl h0
  case call nnn =>
    simp only [exec, execCall] at h
    rcases push_cases s s.pc with ⟨_, e⟩ | ⟨h0, e⟩ <;> rw [e] at h <;> cases h
    exact .full nnn rfl h0
  case skp x =>
    simp only [exec, execSkp] at h
    split at h <;> cases h
    rename_i e; exact bounds (hexDigitOperand_fault e)
  case sknp x =>
    simp only [exec, execSknp] at h
    split at h <;> cases h
    rename_i e; exact bounds (hexDigitOperand_fault e)
  case ldF x =>
    simp only [exec, execLdF] at h
    split at h <;> cases h
    rename_i e; exact bounds (hexDigitOperand_fault e)
  case drw x y n =>
    simp only [exec, execDrw] at h
    split at h <;> cases h
    rename_i e; exact bounds (loadBlock_fault e)
  case ldVxMem x =>
    simp only [exec, execLdVxMem] at h
    split at h <;> cases h
    rename_i e; exact bounds (loadBlock_fault e)
  case ldB x =>
    simp only [exec, execLdB] at h
    cases e : storeBlock s (idxBase s) (bcdDigits (readReg s x)) <;> rw [e] at h <;> cases h
    obtain ⟨i, -, hi⟩ := storeBlock_error_inv e
    exact bounds ⟨_, hi⟩
  case ldMemVx x =>
    simp only [exec, execLdMemVx] at h
    split at h <;> cases h
    rename_i e
    obtain ⟨i, -, hi⟩ := storeBlock_error_inv e
    exact bounds ⟨_, hi⟩
  case ldVxK x =>
    simp only [exec, execLdVxK] at h
    split at h <;> cases h
  all_goals cases h

end Sys2Proof.Machine
end

