-- ==== Sys2Proof/Laws/Host.lean ====
section
/-! SUPPORT. What a snapshot holds and what reading it back gives (60_exceptions.md R132, R134). -/

namespace Sys2Proof.Machine

theorem rows_flat_length (l : List (Vector Bool 64)) : (l.flatMap Vector.toList).length = l.length * 64 := by
  induction l with
  | nil => rfl
  | cons a l ih => simp only [List.flatMap_cons, List.length_append, ih, List.length_cons, Vector.length_toList]; omega

theorem rows_flat_getElem? (l : List (Vector Bool 64)) (y x : Nat) (hx : x < 64) (hy : y < l.length) :
    (l.flatMap Vector.toList)[y * 64 + x]? = some l[y][x] := by
  induction l generalizing y with
  | nil => simp at hy
  | cons a l ih =>
    cases y with
    | zero => simp [List.getElem?_append, hx]
    | succ y =>
      simp only [List.length_cons] at hy
      rw [List.flatMap_cons, List.getElem?_append_right (by simp; omega), Vector.length_toList,
        show (y + 1) * 64 + x - 64 = y * 64 + x by omega]
      exact ih y (by omega)

/-- The framebuffer read back from its pixels in row-major order. -/
theorem fb_of_pixels (fb : Framebuffer) :
    (Vector.ofFn fun (y : Fin 32) => Vector.ofFn fun (x : Fin 64) =>
      (pixelsOf fb).getD (64 * y.val + x.val) false) = fb := by
  apply Vector.ext; intro y hy; apply Vector.ext; intro x hx
  have := rows_flat_getElem? fb.toList y x hx (by simpa using hy)
  rw [show y * 64 + x = 64 * y + x by omega] at this
  simp [pixelsOf, List.getD_eq_getElem?_getD, this]

/-- A vector read back from its numbers. -/
theorem vectorOf_numbers {w n : Nat} (v : Vector (BitVec w) n) :
    vectorOf n 0 ((v.toList.map BitVec.toNat).map (BitVec.ofNat w)) = v := by
  apply Vector.ext
  intro i hi
  simp [vectorOf, List.getD_eq_getElem?_getD]

/-- Numbers that come from words of a width have that width. -/
theorem fits_numbers {w : Nat} (l : List (BitVec w)) : fits l.length w (l.map BitVec.toNat) = true := by
  have : (l.map BitVec.toNat).all (fun v => v < 2 ^ w) = true := by
    simp only [List.all_eq_true, List.mem_map, decide_eq_true_eq]
    rintro _ ⟨v, -, rfl⟩; exact v.isLt
  rw [fits, this, List.length_map]; simp

/-- No address outside memory is listed in a memory of canonical form. -/
theorem lookup_outside {font : Config.Font} {m : Memory} (h : Memory.wf font m) {a : Nat} (ha : 4096 ≤ a) :
    Memory.lookup m a = none := by
  have h2 := h.2
  clear h
  induction m with
  | nil => rfl
  | cons e m ih =>
    obtain ⟨b, v⟩ := e
    have := (h2 (b, v) (by simp)).1
    rw [Memory.lookup, if_neg (by simp only at this; omega)]
    exact ih (fun c hc => h2 c (by simp [hc]))

/-- Memory read back from the numbers of its 4096 bytes. -/
theorem memory_of_numbers (s : State) (hs : Memory.wf s.params.font s.mem) :
    Memory.setBytes s.params.font [] 0 (((bytesAt s 0 4096).map BitVec.toNat).map (BitVec.ofNat 8)) = s.mem := by
  apply Memory.wf_ext s.params.font (Memory.setBytes_wf _ _ _ _ (by simp) (Memory.nil_wf _)) hs
  intro a
  rw [Memory.byteAt_setBytes]
  simp only [Nat.zero_le, if_true, Nat.sub_zero, List.map_map]
  by_cases ha : a < 4096
  · rw [List.getD_eq_getElem _ _ (by simpa using ha)]
    simp [bytesAt_getElem]; rfl
  · rw [List.getD_eq_default _ _ (by simp; omega)]
    simp [Memory.byteAt, lookup_outside hs (by omega : 4096 ≤ a), Memory.lookup]

end Sys2Proof.Machine
end

