-- ==== Sys2Proof/Laws/PerInstr.lean ====
section
/-! SUPPORT. Statements for all instructions, one lemma per constructor. -/

namespace Sys2Proof.Laws.Row

/-- The instruction's word has exactly the fixed bits of its own row of the opcode table, and the row is in the table
(30_encoding.md R49, R52). -/
def Statement (i : Instr) : Prop := i.row.has (encode i) = true ∧ i.row ∈ opcodeTable

theorem row_mem (r : Sys2Proof.Row) (h : opcodeTable.elem r = true) : r ∈ opcodeTable := List.mem_of_elem_eq_true h

/-- The fixed bits of a format-A word are its class nibble. -/
theorem has_formatA (m : String) (c : BitVec 4) (nnn : Addr) :
    Row.has ⟨m, formatA c 0, 0xF000⟩ (formatA c nnn) = true := by
  simp only [Sys2Proof.Row.has, beq_iff_eq]
  apply BitVec.eq_of_getLsbD_eq
  intro i hi
  simp only [formatA, BitVec.getLsbD_and, BitVec.getLsbD_append]
  interval_cases i <;> simp

/-- The fixed bits of a format-XK word are its class nibble. -/
theorem has_formatXK (m : String) (c : BitVec 4) (x : Reg) (kk : Byte) :
    Row.has ⟨m, formatXK c 0 0, 0xF000⟩ (formatXK c x kk) = true := by
  simp only [Sys2Proof.Row.has, beq_iff_eq]
  apply BitVec.eq_of_getLsbD_eq
  intro i hi
  simp only [formatXK, BitVec.getLsbD_and, BitVec.getLsbD_append]
  interval_cases i <;> simp [nibbleOf]

/-- The fixed bits of a format-X word are its class nibble and its low byte. -/
theorem has_formatX (m : String) (c : BitVec 4) (x : Reg) (kk : Byte) :
    Row.has ⟨m, formatXK c 0 kk, 0xF0FF⟩ (formatXK c x kk) = true := by
  simp only [Sys2Proof.Row.has, beq_iff_eq]
  apply BitVec.eq_of_getLsbD_eq
  intro i hi
  simp only [formatXK, BitVec.getLsbD_and, BitVec.getLsbD_append]
  interval_cases i <;> simp [nibbleOf]

/-- The fixed bits of a format-XY word are its class nibble and its low nibble. -/
theorem has_formatXY (m : String) (c : BitVec 4) (x y : Reg) (n : BitVec 4) :
    Row.has ⟨m, formatXYN c 0 0 n, 0xF00F⟩ (formatXYN c x y n) = true := by
  simp only [Sys2Proof.Row.has, beq_iff_eq]
  apply BitVec.eq_of_getLsbD_eq
  intro i hi
  simp only [formatXYN, BitVec.getLsbD_and, BitVec.getLsbD_append]
  interval_cases i <;> simp [nibbleOf]

/-- The fixed bits of a format-XYN word are its class nibble. -/
theorem has_formatXYN (m : String) (c : BitVec 4) (x y : Reg) (n : BitVec 4) :
    Row.has ⟨m, formatXYN c 0 0 0, 0xF000⟩ (formatXYN c x y n) = true := by
  simp only [Sys2Proof.Row.has, beq_iff_eq]
  apply BitVec.eq_of_getLsbD_eq
  intro i hi
  simp only [formatXYN, BitVec.getLsbD_and, BitVec.getLsbD_append]
  interval_cases i <;> simp [nibbleOf]

theorem nop : Statement .nop := ⟨rfl, row_mem _ rfl⟩
theorem cls : Statement .cls := ⟨rfl, row_mem _ rfl⟩
theorem ret : Statement .ret := ⟨rfl, row_mem _ rfl⟩
theorem jp (nnn : Addr) : Statement (.jp nnn) := ⟨has_formatA _ _ _, row_mem _ rfl⟩
theorem call (nnn : Addr) : Statement (.call nnn) := ⟨has_formatA _ _ _, row_mem _ rfl⟩
theorem seByte (x : Reg) (kk : Byte) : Statement (.seByte x kk) := ⟨has_formatXK _ _ _ _, row_mem _ rfl⟩
theorem sneByte (x : Reg) (kk : Byte) : Statement (.sneByte x kk) := ⟨has_formatXK _ _ _ _, row_mem _ rfl⟩
theorem seReg (x y : Reg) : Statement (.seReg x y) := ⟨has_formatXY _ _ _ _ _, row_mem _ rfl⟩
theorem ldByte (x : Reg) (kk : Byte) : Statement (.ldByte x kk) := ⟨has_formatXK _ _ _ _, row_mem _ rfl⟩
theorem addByte (x : Reg) (kk : Byte) : Statement (.addByte x kk) := ⟨has_formatXK _ _ _ _, row_mem _ rfl⟩
theorem ldReg (x y : Reg) : Statement (.ldReg x y) := ⟨has_formatXY _ _ _ _ _, row_mem _ rfl⟩
theorem orReg (x y : Reg) : Statement (.orReg x y) := ⟨has_formatXY _ _ _ _ _, row_mem _ rfl⟩
theorem andReg (x y : Reg) : Statement (.andReg x y) := ⟨has_formatXY _ _ _ _ _, row_mem _ rfl⟩
theorem xorReg (x y : Reg) : Statement (.xorReg x y) := ⟨has_formatXY _ _ _ _ _, row_mem _ rfl⟩
theorem addReg (x y : Reg) : Statement (.addReg x y) := ⟨has_formatXY _ _ _ _ _, row_mem _ rfl⟩
theorem subReg (x y : Reg) : Statement (.subReg x y) := ⟨has_formatXY _ _ _ _ _, row_mem _ rfl⟩
theorem shr (x y : Reg) : Statement (.shr x y) := ⟨has_formatXY _ _ _ _ _, row_mem _ rfl⟩
theorem subn (x y : Reg) : Statement (.subn x y) := ⟨has_formatXY _ _ _ _ _, row_mem _ rfl⟩
theorem shl (x y : Reg) : Statement (.shl x y) := ⟨has_formatXY _ _ _ _ _, row_mem _ rfl⟩
theorem sneReg (x y : Reg) : Statement (.sneReg x y) := ⟨has_formatXY _ _ _ _ _, row_mem _ rfl⟩
theorem ldI (nnn : Addr) : Statement (.ldI nnn) := ⟨has_formatA _ _ _, row_mem _ rfl⟩
theorem jpV0 (nnn : Addr) : Statement (.jpV0 nnn) := ⟨has_formatA _ _ _, row_mem _ rfl⟩
theorem rnd (x : Reg) (kk : Byte) : Statement (.rnd x kk) := ⟨has_formatXK _ _ _ _, row_mem _ rfl⟩
theorem drw (x y : Reg) (n : Fin 16) : Statement (.drw x y n) := ⟨has_formatXYN _ _ _ _ _, row_mem _ rfl⟩
theorem skp (x : Reg) : Statement (.skp x) := ⟨has_formatX _ _ _ _, row_mem _ rfl⟩
theorem sknp (x : Reg) : Statement (.sknp x) := ⟨has_formatX _ _ _ _, row_mem _ rfl⟩
theorem ldVxDt (x : Reg) : Statement (.ldVxDt x) := ⟨has_formatX _ _ _ _, row_mem _ rfl⟩
theorem ldVxK (x : Reg) : Statement (.ldVxK x) := ⟨has_formatX _ _ _ _, row_mem _ rfl⟩
theorem ldDtVx (x : Reg) : Statement (.ldDtVx x) := ⟨has_formatX _ _ _ _, row_mem _ rfl⟩
theorem ldStVx (x : Reg) : Statement (.ldStVx x) := ⟨has_formatX _ _ _ _, row_mem _ rfl⟩
theorem addI (x : Reg) : Statement (.addI x) := ⟨has_formatX _ _ _ _, row_mem _ rfl⟩
theorem ldF (x : Reg) : Statement (.ldF x) := ⟨has_formatX _ _ _ _, row_mem _ rfl⟩
theorem ldB (x : Reg) : Statement (.ldB x) := ⟨has_formatX _ _ _ _, row_mem _ rfl⟩
theorem ldMemVx (x : Reg) : Statement (.ldMemVx x) := ⟨has_formatX _ _ _ _, row_mem _ rfl⟩
theorem ldVxMem (x : Reg) : Statement (.ldVxMem x) := ⟨has_formatX _ _ _ _, row_mem _ rfl⟩

end Sys2Proof.Laws.Row
end

