-- ==== Sys2Proof/Tests/Slice0.lean ====
section
/-! SUPPORT. The model's own tests, and a witness for each statement that has hypotheses. Expected values come from
95_test_vectors.md (the vector's name stands in the comment) or by hand from the rule named. -/

namespace Sys2Proof.Tests

open Sys2Proof.Machine

/-! ## WellFormed: the one check, with a term of each kind that it refuses -/

def extrasOff : Config.Params := { Config.defaultParams with extras := .off }

theorem test_wellFormed_refuses_ldByte : Instr.wellFormed extrasOff (.ldByte 0 5) = false := by decide
theorem test_wellFormed_refuses_rnd : Instr.wellFormed extrasOff (.rnd 0 5) = false := by decide
theorem test_wellFormed_refuses_ldF : Instr.wellFormed extrasOff (.ldF 0) = false := by decide
theorem test_wellFormed_admits : Instr.wellFormed extrasOff (.addByte 0 5) = true ∧
    Instr.wellFormed Config.defaultParams (.ldByte 0 5) = true := by decide

/-! ## Decode: a word of every row, written out bit by bit from R47 and R52 -/

theorem test_decode_whole_words :
    decodeTableWord 16 0b0000_0000_0000_0000 = some .nop ∧ decodeTableWord 16 0b0000_0000_1110_0000 = some .cls ∧
    decodeTableWord 16 0b0000_0000_1110_1110 = some .ret := by decide

theorem test_decode_addresses :
    decodeTableWord 16 0b0001_0010_0011_0100 = some (.jp 0x234) ∧
    decodeTableWord 16 0b0010_0011_0000_0000 = some (.call 0x300) ∧
    decodeTableWord 16 0b1010_0010_1111_0000 = some (.ldI 0x2F0) ∧
    decodeTableWord 16 0b1011_1111_1111_1111 = some (.jpV0 0xFFF) := by decide

theorem test_decode_bytes :
    decodeTableWord 16 0b0011_0011_0100_0010 = some (.seByte 3 0x42) ∧
    decodeTableWord 16 0b0100_1111_0000_0001 = some (.sneByte 15 0x01) ∧
    decodeTableWord 16 0b0110_1010_0010_1111 = some (.ldByte 10 0x2F) ∧
    decodeTableWord 16 0b0111_0000_0010_0000 = some (.addByte 0 0x20) ∧
    decodeTableWord 16 0b1100_0011_0000_1111 = some (.rnd 3 0x0F) := by decide

theorem test_decode_register_pairs :
    decodeTableWord 16 0b0101_0001_0010_0000 = some (.seReg 1 2) ∧
    decodeTableWord 16 0b1001_0001_0010_0000 = some (.sneReg 1 2) ∧
    decodeTableWord 16 0b1000_0001_0010_0000 = some (.ldReg 1 2) ∧
    decodeTableWord 16 0b1000_0001_0010_0001 = some (.orReg 1 2) ∧
    decodeTableWord 16 0b1000_0001_0010_0010 = some (.andReg 1 2) ∧
    decodeTableWord 16 0b1000_0001_0010_0011 = some (.xorReg 1 2) := by decide

theorem test_decode_arithmetic :
    decodeTableWord 16 0b1000_1010_1011_0100 = some (.addReg 10 11) ∧
    decodeTableWord 16 0b1000_0001_0010_0101 = some (.subReg 1 2) ∧
    decodeTableWord 16 0b1000_0100_0101_0110 = some (.shr 4 5) ∧
    decodeTableWord 16 0b1000_0001_0010_0111 = some (.subn 1 2) ∧
    decodeTableWord 16 0b1000_0100_0101_1110 = some (.shl 4 5) ∧
    decodeTableWord 16 0b1101_0001_0010_1111 = some (.drw 1 2 15) := by decide

theorem test_decode_class_E_and_timers :
    decodeTableWord 16 0b1110_0001_1001_1110 = some (.skp 1) ∧
    decodeTableWord 16 0b1110_0000_1010_0001 = some (.sknp 0) ∧
    decodeTableWord 16 0b1111_0011_0000_0111 = some (.ldVxDt 3) ∧
    decodeTableWord 16 0b1111_0101_0000_1010 = some (.ldVxK 5) ∧
    decodeTableWord 16 0b1111_0011_0001_0101 = some (.ldDtVx 3) ∧
    decodeTableWord 16 0b1111_0000_0001_1000 = some (.ldStVx 0) := by decide

theorem test_decode_class_F_memory :
    decodeTableWord 16 0b1111_0101_0001_1110 = some (.addI 5) ∧
    decodeTableWord 16 0b1111_0010_0010_1001 = some (.ldF 2) ∧
    decodeTableWord 16 0b1111_0011_0011_0011 = some (.ldB 3) ∧
    decodeTableWord 16 0b1111_0001_0101_0101 = some (.ldMemVx 1) ∧
    decodeTableWord 16 0b1111_0010_0110_0101 = some (.ldVxMem 2) := by decide

/-- T40.8 to T40.10, T42.9, T42.10, T43.15, T43.16, T49.16 to T49.18: words of no row. -/
theorem test_decode_refuses_reserved_words :
    ∀ w ∈ [0x0123, 0x00E1, 0x00FE, 0x5001, 0x512F, 0x9121, 0x8128, 0x812D, 0xE19F, 0xF0FF, 0xF00B],
      decodeTableWord 16 w = none := by decide

theorem test_decode_refuses_truncated_bytes :
    decodeBytes [] = .error .truncated ∧ decodeBytes [0x12] = .error .truncated := by decide

/-- R45: two bytes are taken and the rest is left. -/
theorem test_decode_leaves_the_rest : decodeBytes [0x12, 0x34, 0xAB] = .ok (.jp 0x234, [0xAB]) := by decide

/-- R52: 35 rows. -/
theorem test_opcode_table_length : opcodeTable.length = 35 := by decide

/-! ## One cycle on a small state -/

/-- The construction state with some registers written. -/
def withRegs (l : List (Reg × Byte)) (s : State) : State := l.foldl (fun s r => writeReg s r.1 r.2) s

/-- A state with registers, I and bytes from 0x300 on. -/
def start (l : List (Reg × Byte)) (i : Word) (bs : List Byte := []) : State :=
  putBytes (setIdx (withRegs l .reset) i) 0x300 bs

/-- The default parameters with one setting changed. -/
def shiftY (s : State) : State := { s with params := { s.params with shiftSrc := .y } }
def advancing (s : State) : State := { s with params := { s.params with ldstIndex := .advance } }
def fontAllowed (s : State) : State := { s with params := { s.params with fontWrite := .allow } }
def noExtras (s : State) : State := { s with params := { s.params with extras := .off } }

/-- The state after one cycle of the word at PC. -/
def after (w : Nat) (s : State) : Option State :=
  match step (s.withFetchWord 16 w) with
  | .next t => some t
  | _ => none

/-- The error of one cycle of the word at PC. -/
def errorOf (w : Nat) (s : State) : Option Fault :=
  match step (s.withFetchWord 16 w) with
  | .fault f => some f
  | _ => none

/-- PC, Vx and VF after a cycle. -/
def pcVxVf (x : Reg) (w : Nat) (s : State) : Option (Word × Byte × Byte) :=
  (after w s).map (fun t => (t.pc, readReg t x, readReg t 15))

/-- PC after a cycle. -/
def pcOf (w : Nat) (s : State) : Option Word := (after w s).map State.pc

/-- I after a cycle. -/
def idxOf (w : Nat) (s : State) : Option Word := (after w s).map State.idx

/-- `n` bytes from an address on, after a cycle. -/
def bytesOf (a n w : Nat) (s : State) : Option (List Byte) := (after w s).map (fun t => bytesAt t a n)

/-- Pixels (x, y) after a cycle, and VF. -/
def pixelsAt (l : List (Fin 64 × Fin 32)) (w : Nat) (s : State) : Option (List Bool × Byte) :=
  (after w s).map (fun t => (l.map (fun p => t.fb.pixel p.2 p.1), readReg t 15))

/-- The stack with one entry written and SP set. -/
def withStack (sp : Fin 17) (k : Fin 16) (v : Word) (s : State) : State :=
  { s with sp := sp, stack := s.stack.set k v }

/-- The keypad with one key pressed. -/
def pressed (k : Fin 16) (s : State) : State := { s with keys := s.keys.set k true }

/-- One pixel set. -/
def lit (x : Fin 64) (y : Fin 32) (s : State) : State := setFb s (s.fb.toggle y x)

/-- T40.11. -/
theorem test_nop_at_the_last_word : pcOf 0x0000 (setPc .reset 0xFFE) = some 0x1000 := by decide
/-- T40.2. -/
theorem test_cls_clears : pixelsAt [(0, 0), (5, 3), (63, 31)] 0x00E0 (lit 0 0 (lit 5 3 (lit 63 31 .reset))) =
    some ([false, false, false], 0) := by decide
/-- T40.5. -/
theorem test_ret_from_a_full_stack :
    (after 0x00EE (withStack 16 15 0x404 .reset)).map (fun t => (t.pc, t.sp)) = some (0x404, 15) := by decide
/-- T40.6. -/
theorem test_ret_underflow : errorOf 0x00EE .reset = some (.stackUnderflow 0x200) := by decide
/-- T41.1. -/
theorem test_jp : pcOf 0x1234 .reset = some 0x234 := by decide
/-- T41.6. -/
theorem test_call_fills_the_stack :
    (after 0x2300 (setPc (withStack 15 0 0 .reset) 0x204)).map (fun t => (t.pc, t.sp, t.stack[15])) =
      some (0x300, 16, 0x206) := by decide
/-- T41.7. -/
theorem test_call_overflow : errorOf 0x2300 (setPc (withStack 16 0 0x202 .reset) 0x204) = some (.stackOverflow 0x204) := by
  decide
/-- T42.1, T42.2. -/
theorem test_se_byte : pcOf 0x3342 (setPc (withRegs [(3, 0x42)] .reset) 0x210) = some 0x214 ∧
    pcOf 0x3342 (setPc (withRegs [(3, 0x41)] .reset) 0x210) = some 0x212 := by decide
/-- T42.4, T42.5. -/
theorem test_sne_byte : pcOf 0x4342 (setPc (withRegs [(3, 0x42)] .reset) 0x210) = some 0x212 ∧
    pcOf 0x4300 (setPc (withRegs [(3, 0x42)] .reset) 0x210) = some 0x214 := by decide
/-- T42.6, T42.7. -/
theorem test_se_reg : pcOf 0x5120 (withRegs [(1, 7), (2, 7)] .reset) = some 0x204 ∧
    pcOf 0x5120 (withRegs [(1, 7), (2, 8)] .reset) = some 0x202 := by decide
/-- R72's example; x = y never skips. -/
theorem test_sne_reg : pcOf 0x9120 (withRegs [(1, 7), (2, 8)] .reset) = some 0x204 ∧
    pcOf 0x9110 (withRegs [(1, 7)] .reset) = some 0x202 := by decide
/-- T42.9. -/
theorem test_unrecognised_word : errorOf 0x5001 .reset = some (.unimplementedOpcode 0x5001) := by decide
/-- R74's example, and R58. -/
theorem test_ld_byte : pcVxVf 10 0x6A2F .reset = some (0x202, 0x2F, 0) ∧
    errorOf 0x6A2F (noExtras .reset) = some (.unimplementedOpcode 0x6A2F) := by decide
/-- R75's example. -/
theorem test_ld_reg : pcVxVf 1 0x8120 (withRegs [(2, 0x99)] .reset) = some (0x202, 0x99, 0) := by decide
/-- R76's example: OR leaves VF alone. -/
theorem test_or : pcVxVf 1 0x8121 (withRegs [(1, 0xF0), (2, 0x0F), (15, 1)] .reset) = some (0x202, 0xFF, 1) := by decide
/-- R77's example. -/
theorem test_and : pcVxVf 1 0x8122 (withRegs [(1, 0xF0), (2, 0x3C)] .reset) = some (0x202, 0x30, 0) := by decide
/-- R78's example. -/
theorem test_xor : pcVxVf 1 0x8123 (withRegs [(1, 0xF0), (2, 0x3C)] .reset) = some (0x202, 0xCC, 0) := by decide
/-- R79's example: draw 0xA7, `C30F`. -/
theorem test_rnd_masks_the_draw : readReg (rndWith 0xA7 3 0x0F .reset) 3 = 0x07 := by decide
/-- R79: a zero mask gives 0 whatever the draw is. -/
theorem test_rnd_zero_mask (r : Byte) : readReg (rndWith r 3 0x00 .reset) 3 = 0x00 := by
  rw [rndWith, readReg_writeReg, if_pos rfl]; exact BitVec.and_zero
/-- T44.2, T44.6. -/
theorem test_add_byte : pcVxVf 0 0x7001 (withRegs [(0, 0xFF)] .reset) = some (0x202, 0x00, 1) ∧
    pcVxVf 15 0x7F01 (withRegs [(15, 0xFF)] .reset) = some (0x202, 1, 1) := by decide
/-- T44.9, T44.12. -/
theorem test_add_reg : pcVxVf 1 0x8124 (withRegs [(1, 0x10), (2, 0x20), (15, 1)] .reset) = some (0x202, 0x30, 0) ∧
    pcVxVf 1 0x81F4 (withRegs [(1, 0xFF), (15, 1)] .reset) = some (0x202, 0x00, 1) := by decide
/-- T44.15, T44.16. -/
theorem test_sub : pcVxVf 1 0x8125 (withRegs [(1, 3), (2, 5)] .reset) = some (0x202, 0xFE, 0) ∧
    pcVxVf 1 0x8125 (withRegs [(1, 5), (2, 5)] .reset) = some (0x202, 0x00, 1) := by decide
/-- T44.19, T44.22. -/
theorem test_subn : pcVxVf 1 0x8127 (withRegs [(1, 3), (2, 5)] .reset) = some (0x202, 0x02, 1) ∧
    pcVxVf 15 0x8F17 (withRegs [(15, 2), (1, 1)] .reset) = some (0x202, 0, 0) := by decide
/-- T45.6, T45.7. -/
theorem test_shr : pcVxVf 4 0x8456 (shiftY (withRegs [(4, 4), (5, 0x81)] .reset)) = some (0x202, 0x40, 1) ∧
    pcVxVf 4 0x8456 (withRegs [(4, 4), (5, 0x81)] .reset) = some (0x202, 0x02, 0) := by decide
/-- T45.8, T45.12. -/
theorem test_shl : pcVxVf 4 0x840E (withRegs [(4, 0x81)] .reset) = some (0x202, 0x02, 1) ∧
    pcVxVf 4 0x845E (shiftY (withRegs [(4, 1), (5, 0xC0)] .reset)) = some (0x202, 0x80, 1) := by decide
/-- T46.2. -/
theorem test_ld_i : idxOf 0xAFFF (setIdx .reset 0x123) = some 0xFFF := by decide
/-- T46.4, T46.6. -/
theorem test_jp_v0 : pcOf 0xBFFF (withRegs [(0, 0xFF)] .reset) = some 0x10FE ∧
    pcOf 0xB5F0 (withRegs [(0, 2), (5, 0x40)] .reset) = some 0x5F2 := by decide
/-- T46.8, T46.9. -/
theorem test_add_i : idxOf 0xF11E (start [(1, 1)] 0xFFF) = some 0x1000 ∧
    idxOf 0xF11E (start [(1, 1)] 0xFFFF) = some 0 := by decide
/-- T46.14, T46.15. -/
theorem test_ld_f : idxOf 0xF329 (withRegs [(3, 0x0F)] .reset) = some 0x4B ∧
    errorOf 0xF329 (withRegs [(3, 0x10)] .reset) = some (.outOfBounds 0x10) := by decide
/-- T47.2, T47.9. -/
theorem test_drw_collides_and_wraps :
    pixelsAt [(2, 3)] 0xD011 (lit 2 3 (start [(0, 2), (1, 3)] 0x300 [0x80])) = some ([false], 1) ∧
    pixelsAt [(5, 8), (6, 8)] 0xD011 (start [(0, 0x45), (1, 0xC8)] 0x300 [0x80]) = some ([true, false], 0) := by decide
/-- T47.5, T47.7. -/
theorem test_drw_wraps_both_ways_and_faults :
    pixelsAt [(62, 31), (63, 31), (0, 31), (1, 31), (62, 0), (1, 0), (63, 0), (0, 0)] 0xDAB2
      (start [(10, 0x3E), (11, 0x1F)] 0x300 [0xF0, 0x90]) =
        some ([true, true, true, true, true, true, false, false], 0) ∧
    errorOf 0xD012 (start [] 0xFFF) = some (.outOfBounds 0x1000) := by decide
/-- T48.1, T48.9. -/
theorem test_bcd : bytesOf 0x300 3 0xF333 (start [(3, 0x9C)] 0x300) = some [1, 5, 6] ∧
    bytesOf 0x04E 3 0xF033 (fontAllowed (start [(0, 0xFF)] 0x04E)) = some [2, 5, 5] := by decide
/-- T48.6, T48.8. -/
theorem test_bcd_faults : errorOf 0xF033 (start [(0, 0xFF)] 0xFFE) = some (.outOfBounds 0x1000) ∧
    errorOf 0xF033 (start [(0, 0xFF)] 0x04E) = some (.outOfBounds 0x04E) := by decide
/-- T48.12, T48.15. -/
theorem test_store : (after 0xF155 (advancing (start [(0, 0x11), (1, 0x22)] 0x400))).map
      (fun t => (t.idx, bytesAt t 0x400 3)) = some (0x402, [0x11, 0x22, 0]) ∧
    bytesOf 0xFFE 2 0xFF55 (start [(0, 1), (15, 0xEE)] 0xFF0) = some [0, 0xEE] := by decide
/-- T48.16. -/
theorem test_store_faults_in_the_font : errorOf 0xF155 (start [(0, 1), (1, 2)] 0x04F) = some (.outOfBounds 0x04F) := by
  decide
/-- T48.17 (at 0x300), T48.20. -/
theorem test_load : (after 0xF265 (start [(3, 9)] 0x300 [0xAA, 0xBB, 0xCC, 0xDD])).map
      (fun t => (regsUpTo t 3, t.idx)) = some ([0xAA, 0xBB, 0xCC, 9], 0x300) ∧
    pcVxVf 0 0xFF65 (putBytes (start [] 0xFF0) 0xFFF [0x77]) = some (0x202, 0, 0x77) := by decide
/-- T48.22, T48.23. -/
theorem test_load_advances_or_faults :
    errorOf 0xF165 (advancing (start [] 0xFFFF)) = some (.outOfBounds 0xFFFF) ∧
    idxOf 0xF065 (advancing (start [] 0xFFF)) = some 0x1000 := by decide
/-- T49.1. -/
theorem test_ld_vx_dt : pcVxVf 3 0xF307 (setDt .reset 0x3C) = some (0x202, 0x3C, 0) := by decide
/-- T49.3, T49.4. -/
theorem test_timer_writes : (after 0xF315 (withRegs [(3, 0x3C)] .reset)).map (fun t => (t.dt, t.st)) = some (0x3C, 0) ∧
    (after 0xF018 (withRegs [(0, 5)] .reset)).map (fun t => (t.dt, t.st)) = some (0, 5) := by decide
/-- T49.12, T49.10. -/
theorem test_skp : pcOf 0xEF9E (pressed 15 (setPc (withRegs [(15, 0x0F)] .reset) 0x220)) = some 0x224 ∧
    errorOf 0xE19E (pressed 0 (setPc (withRegs [(1, 0x10)] .reset) 0x220)) = some (.outOfBounds 0x10) := by decide
/-- T49.8, T49.9. -/
theorem test_sknp : pcOf 0xE1A1 (setPc (withRegs [(1, 5)] .reset) 0x220) = some 0x224 ∧
    pcOf 0xE1A1 (pressed 5 (setPc (withRegs [(1, 5)] .reset) 0x220)) = some 0x222 := by decide
/-- T49.13, T49.14. -/
theorem test_wait_for_key : pcVxVf 5 0xF50A (pressed 3 (pressed 9 (setPc .reset 0x230))) = some (0x232, 3, 0) ∧
    pcVxVf 5 0xF50A (setPc (withRegs [(5, 0x77)] .reset) 0x230) = some (0x230, 0x77, 0) := by decide
/-- F2: an odd PC. -/
theorem test_odd_pc : pcVxVf 0 0x607F (setPc .reset 0x301) = some (0x303, 0x7F, 0) := by decide
/-- F4, F6. -/
theorem test_fetch_faults : step (setPc .reset 0xFFF) = .fault (.outOfBounds 0x1000) ∧
    step (setPc .reset 0x10FE) = .fault (.outOfBounds 0x10FE) := ⟨rfl, rfl⟩

/-! ## Construction and host operations -/

/-- H1: glyph 0, glyph F, and zero after the font. -/
theorem test_construct : bytesAt .reset 0 5 = [0xF0, 0x90, 0x90, 0x90, 0xF0] ∧
    bytesAt .reset 0x4B 6 = [0xF0, 0x80, 0xF0, 0x80, 0x80, 0] ∧ State.reset.pc = 0x200 := by decide
/-- H3, H6. -/
theorem test_load_program :
    bytesAt (loadProgram [0xBB, 0xCC] (loadProgram [0xAA] .reset).1).1 0x200 3 = [0xBB, 0xCC, 0] ∧
    (loadProgram [0x12, 0x34] .reset).1.pc = 0x200 := by decide
/-- H5. -/
theorem test_program_too_large : (loadProgram (List.replicate 0xE01 0xAB) .reset).2 =
    .err ⟨5, "ProgramTooLarge", none, none, 0xE01⟩ := by
  rw [loadProgram, if_pos (by rw [List.length_replicate]; decide), List.length_replicate]; rfl
/-- H7, H8. -/
theorem test_timer_tick : (timerTick (setDt .reset 2)).dt = 1 ∧ (timerTick (setSt .reset 1)).st = 0 ∧
    (timerTick (setSt .reset 1)).dt = 0 ∧ soundActive (setSt .reset 1) = true ∧ soundActive .reset = false := by decide
/-- H9 to H12. -/
theorem test_keys : lowestPressed (putKey 3 true (putKey 7 true .reset).1).1.keys = some 3 ∧
    lowestPressed (putKey 7 false (pressed 7 .reset)).1.keys = none ∧
    putKey 0x10 true .reset = (.reset, .rejected) := by decide
/-- H15. -/
theorem test_restore_rejects (r : Snapshot) (h : r.sp = 17) : restore r .reset = (.reset, .rejected) := by
  rw [restore, if_neg (by simp [Snapshot.valid, h])]
/-- P6's first steps: two waits, then the key. -/
theorem test_script_waits_for_a_key :
    (runScript [.cycle, .cycle, .keySet 7, .cycle] (putBytes .reset 0x200 [0xF0, 0x0A])).1.pc = 0x202 := by decide
/-- P5's one-word program and R147 (b), by the record of the error and the halt. -/
theorem test_run_ends :
    (runCycles 1 (putBytes (withStack 16 0 0 .reset) 0x200 [0x22, 0x00])).2 =
      .error ⟨2, "StackOverflow", some 0x200, some 0x2200, 0x200⟩ ∧
    (runCycles 5 (putBytes .reset 0x200 [0x12, 0x00])).2 = .halted 0x200 := by decide

/-! ## Witnesses: states and operands that meet a statement's hypotheses, at the ends of their ranges -/

theorem witness_DecodeEncodeRoundTrip : (Instr.ldByte 0 0).isExtra = true ∧ extrasOff.extras = .off ∧
    recognise extrasOff (encode (.ldByte 0 0)) = none ∧
    recognise Config.defaultParams (encode (.ldByte 15 255)) = some (.ldByte 15 255) := by decide

theorem witness_EncodeOfDecodedWord : decodeWord 0xDEF0 = .ok (.drw 14 15 0) ∧ decodeWord 0xFF65 = .ok (.ldVxMem 15) := by
  decide

theorem witness_DecoderFollowsTable : (Instr.jp 0).row ∈ opcodeTable ∧ (Instr.jp 0).row.has 0x1FFF = true ∧
    (Instr.ldVxMem 0).row ∈ opcodeTable ∧ (Instr.ldVxMem 0).row.has 0xFF65 = true := by decide

/-- Each class at its ends, and a recognised and an unrecognised word in each. -/
theorem witness_ReservedWordsUnrecognised :
    (0x0000#16).toNat / 4096 = 0 ∧ (0x0FFF#16).toNat / 4096 = 0 ∧ (0x8007#16).toNat / 4096 = 8 ∧
    (0x8FFF#16).toNat / 4096 = 8 ∧ (0xE09E#16).toNat / 4096 = 0xE ∧ (0xEFFF#16).toNat / 4096 = 0xE ∧
    recognise extrasOff 0x8007 = some (.subn 0 0) ∧ recognise extrasOff 0x8008 = none ∧
    recognise extrasOff 0x0001 = none ∧ recognise extrasOff 0xEF9F = none := by decide

theorem witness_StepRunsDecodedInstruction :
    let s := (setPc .reset 0xFFE).withFetchWord 16 0x6A2F
    s.pc.toNat < 0xFFF ∧ decodeBytes [byteAt s s.pc.toNat, byteAt s (s.pc.toNat + 1)] = .ok (.ldByte 10 0x2F, []) ∧
      Instr.wellFormed s.params (.ldByte 10 0x2F) = true := by decide

theorem witness_FetchOutsideMemoryFaults : (setPc .reset 0xFFF).pc.toNat = 0xFFF ∧
    0xFFF < (setPc .reset 0x1000).pc.toNat ∧ 0xFFF < (setPc .reset 0xFFFF).pc.toNat := by decide

theorem witness_UnrecognisedWordFaults :
    let s := (setPc .reset 0xFFE).withFetchWord 16 0x5001
    s.pc.toNat < 0xFFF ∧ Word.ofBytes (byteAt s s.pc.toNat) (byteAt s (s.pc.toNat + 1)) = 0x5001 ∧
      recognise s.params 0x5001 = none := by decide

theorem witness_NopOnlyAdvances :
    let s := setPc .reset 0xFFE
    s.pc.toNat < 0xFFF ∧ byteAt s s.pc.toNat = 0 ∧ byteAt s (s.pc.toNat + 1) = 0 := by decide

theorem witness_RetPopsReturnAddress : (withStack 1 0 0x206 .reset).sp.val = (0 : Fin 16).val + 1 ∧
    (withStack 16 15 0x206 .reset).sp.val = (15 : Fin 16).val + 1 ∧ State.reset.sp = 0 := by decide

theorem witness_CallPushesAdvancedPc : State.reset.sp.val = (0 : Fin 16).val ∧
    (withStack 15 0 0 .reset).sp.val = (15 : Fin 16).val ∧ (withStack 16 0 0 .reset).sp = 16 := by decide

theorem witness_NestedCallsReturn : State.reset.sp.val + (List.replicate 16 (0x206 : Addr)).length ≤ 16 ∧
    (withStack 16 0 0 .reset).sp.val + ([] : List Addr).length ≤ 16 ∧
    execAll [.call 0x206, .ret] .reset = .next { State.reset with stack := State.reset.stack.set 0 0x200 } :=
  ⟨by decide, by decide, rfl⟩

theorem witness_ShiftsSetShiftedOutBit : State.reset.params.shiftSrc = .x ∧ (shiftY .reset).params.shiftSrc = .y := by
  decide

theorem witness_FontGlyphAddress : (readReg (withRegs [(3, 0x0F)] .reset) 3).toNat ≤ 0xF ∧
    0xF < (readReg (withRegs [(3, 0x10)] .reset) 3).toNat := by decide

theorem witness_draws_inside_memory :
    ((15 : Fin 16) = 0 ∨ (start [] 0xFF1).idx.toNat + (15 : Fin 16).val ≤ 0x1000) ∧
    ((0 : Fin 16) = 0 ∨ (start [] 0xFFFF).idx.toNat + (0 : Fin 16).val ≤ 0x1000) := by
  decide

/-- The state after a first draw meets the second draw's premises; with VF as both coordinates, once VF is put back. -/
theorem witness_DrawTwiceRestoresPixels :
    (let s := start [(0, 2), (1, 3)] 0x300 [0x80]
     ∃ t, exec (.drw 0 1 1) s = .next t ∧ t.idx = s.idx ∧ readReg t 0 = readReg s 0 ∧ readReg t 1 = readReg s 1) ∧
    (let s := start [(15, 7)] 0x300 [0x80]
     ∃ t, exec (.drw 15 15 1) s = .next t ∧ readReg (writeReg t 15 7) 15 = readReg s 15) :=
  ⟨⟨_, rfl, by decide, by decide, by decide⟩, _, rfl, by decide⟩

theorem witness_DrawPastMemoryFaults :
    ((15 : Fin 16) ≠ 0 ∧ 0x1000 < (start [] 0xFF2).idx.toNat + (15 : Fin 16).val) ∧
    ((1 : Fin 16) ≠ 0 ∧ 0x1000 < (start [] 0x1000).idx.toNat + (1 : Fin 16).val) := by decide

theorem witness_BcdWritesDigits :
    ((start [] 0x050).idx.toNat + 2 ≤ 0xFFF ∧ 0x04F < (start [] 0x050).idx.toNat) ∧
    (start [] 0xFFD).idx.toNat + 2 ≤ 0xFFF ∧ (fontAllowed (start [] 0)).params.fontWrite ≠ .fault := by decide

theorem witness_RegisterStoreCopiesOut :
    ((start [] 0x050).idx.toNat + (15 : Reg).val ≤ 0xFFF ∧ 0x04F < (start [] 0x050).idx.toNat) ∧
    (start [] 0xFF0).idx.toNat + (15 : Reg).val ≤ 0xFFF ∧ (start [] 0xFFF).idx.toNat + (0 : Reg).val ≤ 0xFFF ∧
    (fontAllowed (start [] 0)).params.fontWrite ≠ .fault ∧
    (start [] 0xFFF).params.ldstIndex = .keep ∧ (advancing (start [] 0xFFF)).params.ldstIndex = .advance := by decide

theorem witness_RegisterLoadCopiesIn : (start [] 0).idx.toNat + (15 : Reg).val ≤ 0xFFF ∧
    (start [] 0xFF0).idx.toNat + (15 : Reg).val ≤ 0xFFF ∧ (start [] 0xFFF).idx.toNat + (0 : Reg).val ≤ 0xFFF := by decide

theorem witness_BlockFaultsAtFirstAddress :
    ((start [] 0x04F).params.fontWrite = .fault ∧ (start [] 0x04F).idx.toNat ≤ 0x04F) ∧
    0xFFF < (start [] 0xFFE).idx.toNat + 2 ∧ 0xFFF < (start [] 0xFF1).idx.toNat + (15 : Reg).val ∧
    0xFFF < (start [] 0x1000).idx.toNat + (0 : Reg).val := by decide

/-- The store and the load after it, at the top of memory. -/
theorem witness_StoreThenLoadRoundTrips :
    let s := start [(0, 0x5A)] 0xFFF
    ∃ t v, exec (.ldMemVx 0) s = .next t ∧ t.idx = s.idx ∧ exec (.ldVxMem 0) t = .next v :=
  ⟨_, _, rfl, rfl, rfl⟩

theorem witness_StoreSeenByNextFetch :
    let s := setPc (start [] 0xFFE) 0xFFE
    1 ≤ (1 : Reg).val ∧ s.idx = s.pc ∧ ∃ t, exec (.ldMemVx 1) s = .next t :=
  ⟨by decide, rfl, _, rfl⟩

theorem witness_KeySkips : (readReg (withRegs [(1, 0x0F)] .reset) 1).toNat = (15 : Reg).val ∧
    (readReg .reset 1).toNat = (0 : Reg).val ∧ 0xF < (readReg (withRegs [(1, 0x10)] .reset) 1).toNat := by decide

theorem witness_WaitForKeyTakesLowest :
    ((pressed 3 (pressed 9 .reset)).keys[3] = true ∧ ∀ j < (3 : Reg), (pressed 3 (pressed 9 .reset)).keys[j] = false) ∧
    (pressed 15 .reset).keys[15] = true ∧ ∀ k : Reg, State.reset.keys[k] = false := by decide

theorem witness_WaitAndSelfJumpRepeat :
    haltedAt (State.reset.withFetchWord 16 0x1200) = true ∧
    (let s := (setPc .reset 0xFFE).withFetchWord 16 0xF50A
     s.pc.toNat < 0xFFF ∧ Word.ofBytes (byteAt s s.pc.toNat) (byteAt s (s.pc.toNat + 1)) = encode (.ldVxK 5) ∧
      ∀ k : Reg, s.keys[k] = false) := by decide

/-- The invariants hold of the construction state, which takes a step. -/
theorem witness_invariants : Memory.wf State.reset.params.font State.reset.mem ∧ State.reset.pc.toNat ≤ 0x10FE ∧
    (∀ k : Fin 16, State.reset.stack[k].toNat ≤ 0x1000) ∧ State.reset.params.fontWrite = .fault ∧
    (∀ k : Fin 80, byteAt .reset k = State.reset.params.font[k]) ∧ (after 0x0000 .reset).isSome = true := by decide

/-- A next state of an instruction that none of the frames excepts. -/
theorem witness_writers : (∃ t, exec .nop .reset = .next t) ∧ Instr.nop ≠ .cls ∧ Instr.nop ≠ .ret ∧
    (∀ r, writesReg .nop r = false) ∧ (∀ x, Instr.nop ≠ .ldDtVx x ∧ Instr.nop ≠ .ldB x) ∧
    (∃ t, step .reset = .next t) :=
  ⟨⟨_, rfl⟩, by decide, by decide, fun _ => rfl, fun _ => ⟨nofun, nofun⟩, _, rfl⟩

theorem witness_StackErrorCauses :
    exec (.call 0x300) (setPc (withStack 16 0 0 .reset) 0x206) = .fault (.stackOverflow 0x204) ∧
    exec .ret (setPc .reset 0x206) = .fault (.stackUnderflow 0x204) := ⟨rfl, rfl⟩

theorem witness_LoadProgramWritesImage : ([] : List Byte).length ≤ 0xE00 ∧
    (List.replicate 0xE00 (0xAB : Byte)).length ≤ 0xE00 ∧ 0xE00 < (List.replicate 0xE01 (0xAB : Byte)).length := by
  simp only [List.length_replicate]; decide

theorem witness_KeyAndTimerOperations : 0 < 16 ∧ 15 < 16 ∧ 16 ≤ 16 := by decide

theorem witness_RestoreOfSnapshotRoundTrips : MemoryCanonical .reset ∧ State.reset.params = State.reset.params ∧
    16 < ({ snapshotOf .reset with sp := 17 } : Snapshot).sp :=
  ⟨Memory.nil_wf _, rfl, by decide⟩

theorem witness_FailedCycleKeepsState : step (setPc .reset 0xFFF) = .fault (.outOfBounds 0x1000) ∧
    step ((setPc .reset 0xFFE).withFetchWord 16 0x5001) = .fault (.unimplementedOpcode 0x5001) := ⟨rfl, rfl⟩

end Sys2Proof.Tests
end

/-! ## What each part of the state is changed by (10_state.md)

One frame lemma per part, read off the shapes of effect of `exec_next`: the effects that may write the part are the named
cases, and the obligations follow. -/

section
namespace Sys2Proof.Machine

variable {i : Instr} {s t : State}

theorem endBlock_idx_keep (x : Reg) (h : s.params.ldstIndex = .keep) : (endBlock x s).idx = s.idx := by
  simp [endBlock_idx, h]

theorem readReg_writeRegsFrom_above {bs : List Byte} {r : Reg} (h : bs.length ≤ r.val) :
    readReg { s with regs := writeRegsFrom 0 bs s.regs } r = readReg s r := by
  simp [readReg, writeRegsFrom_getElem, List.getElem?_eq_none h]

namespace Effect

theorem fb_eq (h : Effect i s t) (hcls : i ≠ .cls) (hdrw : ∀ x y n, i ≠ .drw x y n) : t.fb = s.fb := by
  cases h with
  | clear h => exact absurd h hcls
  | drw x y n _ _ h => exact absurd h (hdrw x y n)
  | bcd x _ _ hs => obtain ⟨rfl, -⟩ := storeBlock_inv hs; rfl
  | store x _ u hs => obtain ⟨rfl, -⟩ := storeBlock_inv hs; simp
  | load => simp
  | pc | reg | regFlag | none | ret | call | rnd | idx | dt | st => rfl

theorem stack_eq (h : Effect i s t) (hcall : ∀ nnn, i ≠ .call nnn) (hret : i ≠ .ret) :
    t.sp = s.sp ∧ t.stack = s.stack := by
  cases h with
  | ret h => exact absurd h hret
  | call nnn h => exact absurd h (hcall nnn)
  | bcd x _ _ hs => obtain ⟨rfl, -⟩ := storeBlock_inv hs; exact ⟨rfl, rfl⟩
  | store x _ u hs => obtain ⟨rfl, -⟩ := storeBlock_inv hs; simp
  | load => simp
  | none | clear | pc | reg | regFlag | rnd | idx | drw | dt | st => exact ⟨rfl, rfl⟩

/-- I, with the block transfers excepted only where they advance it (R100, D8). -/
theorem idx_eq (h : Effect i s t) (hldI : ∀ nnn, i ≠ .ldI nnn) (haddI : ∀ x, i ≠ .addI x) (hldF : ∀ x, i ≠ .ldF x)
    (hadv : s.params.ldstIndex = .advance → ∀ x, i ≠ .ldMemVx x ∧ i ≠ .ldVxMem x) : t.idx = s.idx := by
  have keep : ∀ x, i = .ldMemVx x ∨ i = .ldVxMem x → s.params.ldstIndex = .keep := by
    intro x hi
    cases hp : s.params.ldstIndex with
    | keep => rfl
    | advance => exact absurd hi (not_or.2 (hadv hp x))
  cases h with
  | idx a h =>
    obtain ⟨nnn, h⟩ | ⟨x, h⟩ | ⟨x, h⟩ := h
    · exact absurd h (hldI nnn)
    · exact absurd h (haddI x)
    · exact absurd h (hldF x)
  | bcd x _ _ hs => obtain ⟨rfl, -⟩ := storeBlock_inv hs; rfl
  | store x h u hs => obtain ⟨rfl, -⟩ := storeBlock_inv hs; exact endBlock_idx_keep x (keep x (.inl h))
  | load x h => exact endBlock_idx_keep x (keep x (.inr h))
  | none | clear | ret | call | pc | reg | regFlag | rnd | drw | dt | st => rfl

theorem dt_eq (h : Effect i s t) (hdt : ∀ x, i ≠ .ldDtVx x) : t.dt = s.dt := by
  cases h with
  | dt x h => exact absurd h (hdt x)
  | bcd x _ _ hs => obtain ⟨rfl, -⟩ := storeBlock_inv hs; rfl
  | store x _ u hs => obtain ⟨rfl, -⟩ := storeBlock_inv hs; simp
  | load => simp
  | none | clear | ret | call | pc | reg | regFlag | rnd | idx | drw | st => rfl

theorem st_eq (h : Effect i s t) (hst : ∀ x, i ≠ .ldStVx x) : t.st = s.st := by
  cases h with
  | st x h => exact absurd h (hst x)
  | bcd x _ _ hs => obtain ⟨rfl, -⟩ := storeBlock_inv hs; rfl
  | store x _ u hs => obtain ⟨rfl, -⟩ := storeBlock_inv hs; simp
  | load => simp
  | none | clear | ret | call | pc | reg | regFlag | rnd | idx | drw | dt => rfl

theorem keys_params_eq (h : Effect i s t) : t.keys = s.keys ∧ t.params = s.params := by
  cases h with
  | bcd x _ _ hs => obtain ⟨rfl, -⟩ := storeBlock_inv hs; exact ⟨rfl, rfl⟩
  | store x _ u hs => obtain ⟨rfl, -⟩ := storeBlock_inv hs; simp
  | load => simp
  | none | clear | ret | call | pc | reg | regFlag | rnd | idx | drw | dt | st => exact ⟨rfl, rfl⟩

/-- A register outside `writesReg` differs from every register written. -/
theorem readReg_eq (h : Effect i s t) {r : Reg} (hr : writesReg i r = false) : readReg t r = readReg s r := by
  have ne : ∀ x, writesReg i x = true → r ≠ x := by
    rintro x hx rfl
    simp [hr] at hx
  cases h with
  | reg x v hx => simp [ne x hx]
  | regFlag x v hx hf => simp [ne x hx, ne 15 hf]
  | rnd x kk h => subst h; simp [rndWith, ne x (by simp [writesReg])]
  | drw x y n fb v h => subst h; simp [ne 15 (by simp [writesReg])]
  | bcd x _ _ hs => obtain ⟨rfl, -⟩ := storeBlock_inv hs; simp
  | store x _ u hs => obtain ⟨rfl, -⟩ := storeBlock_inv hs; simp
  | load x h bs hl =>
    subst h
    have above : x.val < r.val := by simpa [writesReg] using hr
    rw [readReg_endBlock]
    exact readReg_writeRegsFrom_above (by omega)
  | none | clear | ret | call | pc | idx | dt | st => simp [readReg]

end Effect

/-! ### The bound on PC and the stack entries (R22, D2) -/

/-- What a cycle executes on: the advanced PC of an instruction fetched inside memory, so that a push stays within the
bound on stack entries and a repeat of `Fx0A` does not wrap below zero. -/
def AdvancedBounded (s : State) : Prop :=
  2 ≤ s.pc.toNat ∧ s.pc.toNat ≤ 0x1000 ∧ ∀ k : Fin 16, s.stack[k].toNat ≤ 0x1000

theorem advance_bounded (hpc : s.pc.toNat < 0xFFF) (hs : PcBounded s) : AdvancedBounded (advance s) := by
  have hadv : (s.pc + 2).toNat = s.pc.toNat + 2 := by
    rw [BitVec.toNat_add]; simp; omega
  simp only [AdvancedBounded, advance_pc, advance_stack, hadv]
  exact ⟨by omega, by omega, hs.2⟩

/-- Storing a bounded value keeps every stack entry bounded. -/
theorem stack_set_le {stack : Vector Word 16} {v : Word} {b : Nat} (hv : v.toNat ≤ b)
    (h : ∀ k : Fin 16, stack[k].toNat ≤ b) (j k : Fin 16) : ((stack.set j.val v)[k]).toNat ≤ b := by
  rw [Fin.getElem_fin, Vector.getElem_set]
  split
  · exact hv
  · exact h k

/-- The four places a PC write of an effect can go to, from an advanced PC, lie within the bound. -/
theorem pc_target_le {pc a : Word} (h2 : 2 ≤ pc.toNat) (hle : pc.toNat ≤ 0x1000)
    (h : a = pc ∨ a = pc + 2 ∨ a = pc - 2 ∨ a.toNat ≤ 0x10FE) : a.toNat ≤ 0x10FE := by
  obtain rfl | rfl | rfl | h := h
  · omega
  · rw [BitVec.toNat_add]; simp; omega
  · rw [BitVec.toNat_sub_of_le (by simpa [BitVec.le_def] using h2)]; omega
  · exact h

/-- Every effect on the state of a cycle leaves PC and the stack bounded: RET takes PC from the bounded stack, CALL pushes
the advanced PC, and the other effects keep the stack. -/
theorem Effect.pcBounded (h : Effect i s t) (hs : AdvancedBounded s) : PcBounded t := by
  obtain ⟨h2, hle, hstack⟩ := hs
  have hpc : s.pc.toNat ≤ 0x10FE := by omega
  cases h with
  | ret _ k => exact ⟨(hstack k).trans (by omega), hstack⟩
  | call nnn _ k =>
    refine ⟨?_, stack_set_le hle hstack k⟩
    rw [addrOperand_toNat]; omega
  | pc a ha => exact ⟨pc_target_le h2 hle ha, hstack⟩
  | bcd x _ _ hb => obtain ⟨rfl, -⟩ := storeBlock_inv hb; exact ⟨hpc, hstack⟩
  | store x _ u hb => obtain ⟨rfl, -⟩ := storeBlock_inv hb; simpa [PcBounded] using ⟨hpc, hstack⟩
  | load => simpa [PcBounded] using ⟨hpc, hstack⟩
  | none | clear | reg | regFlag | rnd | idx | drw | dt | st => exact ⟨hpc, hstack⟩

end Sys2Proof.Machine

open Sys2Proof.Machine

/-- Settles O46: a step runs an instruction on the advanced state, and every effect keeps the bound from there. -/
theorem stepKeepsPcBounded : Obligations.StepKeepsPcBounded := by
  intro s t hs h
  obtain ⟨i, hpc, he⟩ := step_next h
  exact (exec_next he).pcBounded (advance_bounded hpc hs)

/-- Settles O48, from the frame of the framebuffer. -/
theorem framebufferWriters : Obligations.FramebufferWriters := by
  intro i s t h hcls hdrw y x
  rw [(exec_next h).fb_eq hcls hdrw]

/-- Settles O50, from the frame of the register file. -/
theorem registerWriters : Obligations.RegisterWriters :=
  fun _ _ _ _ h hr => (exec_next h).readReg_eq hr

/-- Settles O51, from the frames of the stack and of I. -/
theorem stackAndIndexWriters : Obligations.StackAndIndexWriters :=
  fun _ _ _ h => ⟨(exec_next h).stack_eq, (exec_next h).idx_eq⟩

/-- Settles O52, from the frames of the two timers. -/
theorem timerWriters : Obligations.TimerWriters :=
  fun _ _ _ h => ⟨(exec_next h).dt_eq, (exec_next h).st_eq⟩

/-- Settles O53: no effect writes the keypad or the parameters, and neither does the advance of PC. -/
theorem keypadAndParametersReadOnly : Obligations.KeypadAndParametersReadOnly := by
  intro s t h
  obtain ⟨i, -, he⟩ := step_next h
  simpa using (exec_next he).keys_params_eq

end

/-! ## What memory is changed by (20_memory.md)

The two stores write one accepted block, and no other effect touches memory (`Effect.mem_cases`); the canonical form, the
protected font region and the frame of memory follow from that one statement. -/

section
namespace Sys2Proof.Machine

variable {i : Instr} {s t : State}

/-- The memory of `t` is that of `s` with one block written where a store may write (R34): inside memory, and above the
font region when that is protected. -/
structure BlockWritten (s t : State) (a : Nat) (bs : List Byte) : Prop where
  mem       : t.mem = (putBytes s a bs).mem
  inside    : a + bs.length ≤ 4096
  aboveFont : s.params.fontWrite = .fault → 80 ≤ a

theorem storeBlock_written {a : Nat} {bs : List Byte} (h : storeBlock s a bs = .ok t) (hne : bs ≠ []) :
    BlockWritten s t a bs := by
  obtain ⟨rfl, hin, hfont⟩ := storeBlock_inv h
  exact ⟨rfl, hin.resolve_left hne, fun hp => (hfont hp).resolve_left hne⟩

theorem regsUpTo_ne_nil (s : State) (x : Reg) : regsUpTo s x ≠ [] :=
  List.ne_nil_of_length_pos (by simp)

/-- The end of a block transfer moves I only (R100). -/
theorem byteAt_endBlock (x : Reg) (s : State) (a : Nat) : byteAt (endBlock x s) a = byteAt s a :=
  byteAt_congr (endBlock_mem s x) (endBlock_params s x) a

theorem byteAt_advance (s : State) (a : Nat) : byteAt (advance s) a = byteAt s a := rfl

theorem memRead_congr_at {a : Nat} (h : byteAt t a = byteAt s a) : memRead t a = memRead s a := by
  simp [memRead_eq, h]

/-- A completed `Fx55` stored V0 to Vx as one block at I, and then perhaps moved I (R98, R100). -/
theorem exec_ldMemVx_next {x : Reg} (h : exec (.ldMemVx x) s = .next t) :
    ∃ u, storeBlock s (idxBase s) (regsUpTo s x) = .ok u ∧ t = endBlock x u := by
  simp only [exec, execLdMemVx] at h
  cases e : storeBlock s (idxBase s) (regsUpTo s x) with
  | error f => rw [e] at h; cases h
  | ok u => rw [e] at h; cases h; exact ⟨u, rfl, rfl⟩

/-- A completed `Fx55` leaves V[k] at I + k, for k up to x (R98). -/
theorem byteAt_ldMemVx {x k : Reg} (h : exec (.ldMemVx x) s = .next t) (hk : k ≤ x) :
    byteAt t (s.idx.toNat + k.val) = readReg s k := by
  obtain ⟨u, hu, rfl⟩ := exec_ldMemVx_next h
  obtain ⟨rfl, -⟩ := storeBlock_inv hu
  have hlen : k.val < (regsUpTo s x).length := by simp; omega
  rw [byteAt_endBlock, idxBase, byteAt_putBytes_inside s _ k.val _ hlen, regsUpTo_getElem]

/-- A completed `Fx55` stored inside memory and left PC alone. -/
theorem ldMemVx_bounds {x : Reg} (h : exec (.ldMemVx x) s = .next t) :
    s.idx.toNat + x.val < 4096 ∧ t.pc = s.pc := by
  obtain ⟨u, hu, rfl⟩ := exec_ldMemVx_next h
  have hin := (storeBlock_written hu (regsUpTo_ne_nil s x)).inside
  obtain ⟨rfl, -⟩ := storeBlock_inv hu
  rw [regsUpTo_length, idxBase] at hin
  exact ⟨by omega, by simp⟩

namespace Effect

/-- Everything an effect can do to memory: nothing, or the one block of a store. -/
theorem mem_cases (h : Effect i s t) :
    t.mem = s.mem ∨ (∃ x, i = .ldB x ∨ i = .ldMemVx x) ∧ ∃ a bs, BlockWritten s t a bs := by
  cases h with
  | bcd x hi _ hs => exact .inr ⟨⟨x, .inl hi⟩, _, _, storeBlock_written hs (by simp [bcdDigits])⟩
  | store x hi u hs =>
    obtain ⟨hmem, hin, hfont⟩ := storeBlock_written hs (regsUpTo_ne_nil s x)
    exact .inr ⟨⟨x, .inr hi⟩, _, _, (endBlock_mem u x).trans hmem, hin, hfont⟩
  | load x => exact .inl (endBlock_mem _ x)
  | none | clear | ret | call | pc | reg | regFlag | rnd | idx | drw | dt | st => exact .inl rfl

theorem mem_eq (h : Effect i s t) (hbcd : ∀ x, i ≠ .ldB x) (hstore : ∀ x, i ≠ .ldMemVx x) : t.mem = s.mem := by
  obtain hmem | ⟨⟨x, hi | hi⟩, -⟩ := h.mem_cases
  · exact hmem
  · exact absurd hi (hbcd x)
  · exact absurd hi (hstore x)

theorem memoryCanonical (h : Effect i s t) (hs : MemoryCanonical s) : MemoryCanonical t := by
  obtain ⟨-, hparams⟩ := h.keys_params_eq
  rw [MemoryCanonical, hparams]
  obtain hmem | ⟨-, a, bs, hw⟩ := h.mem_cases
  · rwa [hmem]
  · rw [hw.mem]
    exact Memory.setBytes_wf _ _ bs a hw.inside hs

/-- The protected font region lies below every block a store may write (D4). -/
theorem byteAt_font_eq (h : Effect i s t) (hp : s.params.fontWrite = .fault) {a : Nat} (ha : a < 80) :
    byteAt t a = byteAt s a := by
  obtain ⟨-, hparams⟩ := h.keys_params_eq
  obtain hmem | ⟨-, b, bs, hw⟩ := h.mem_cases
  · exact byteAt_congr hmem hparams a
  · have below : a < b := ha.trans_le (hw.aboveFont hp)
    calc byteAt t a = byteAt (putBytes s b bs) a := byteAt_congr hw.mem hparams a
      _ = byteAt s a := byteAt_putBytes_outside s b a bs (.inl below)

theorem fontIntact (h : Effect i s t) (hp : s.params.fontWrite = .fault) (hs : FontIntact s) : FontIntact t := by
  intro k
  obtain ⟨-, hparams⟩ := h.keys_params_eq
  rw [h.byteAt_font_eq hp k.isLt, hparams]
  exact hs k

end Effect
end Sys2Proof.Machine

open Sys2Proof.Machine

/-- Settles O44: the advance of PC keeps memory, and a store writes inside the address space only. -/
theorem stepKeepsMemoryCanonical : Obligations.StepKeepsMemoryCanonical := by
  intro s t hs h
  obtain ⟨i, -, he⟩ := step_next h
  exact (exec_next he).memoryCanonical (s := advance s) hs

/-- Settles O47: every block a store may write lies above the protected font region. -/
theorem fontNeverOverwritten : Obligations.FontNeverOverwritten := by
  intro s t hp h
  obtain ⟨i, -, he⟩ := step_next h
  have heff : Effect i (advance s) t := exec_next he
  refine ⟨fun a ha => memRead_congr_at ?_, fun hs => heff.fontIntact hp hs⟩
  rw [heff.byteAt_font_eq hp (by omega), byteAt_advance]

/-- Settles O36: the stored block begins at the address of the next fetch, with V0 and V1. -/
theorem storeSeenByNextFetch : Obligations.StoreSeenByNextFetch := by
  intro s t x hx hidx h
  obtain ⟨hin, hpc⟩ := ldMemVx_bounds h
  have hhi : byteAt t t.pc.toNat = readReg s 0 := by
    rw [hpc, ← hidx]; exact byteAt_ldMemVx (k := 0) h (Fin.zero_le x)
  have hlo : byteAt t (t.pc.toNat + 1) = readReg s 1 := by
    rw [hpc, ← hidx]; exact byteAt_ldMemVx (k := 1) h hx
  rw [fetch_ok t (by rw [hpc, ← hidx]; omega), hhi, hlo]

/-- Settles O49, from the frame of memory. -/
theorem memoryWriters : Obligations.MemoryWriters := by
  intro i s t h hbcd hstore
  have heff : Effect i s t := exec_next h
  exact memRead_congr (byteAt_congr (heff.mem_eq hbcd hstore) heff.keys_params_eq.2)

end

/-! ## The decoder, the encoder and the opcode table (30_encoding.md)

`decodeFields` reads the fields that the formats of R47 lay out, so decoding an encoding is a computation on those
fields; conversely a word is the format built from its own fields (`formatA_fields`, `formatXK_fields`,
`formatXYN_fields`). -/

section
namespace Sys2Proof

variable {p : Config.Params} {w : Word} {i : Instr}

/-! ### Decoding an encoding -/

@[simp] theorem nibbleOf_toFin (n : Fin 16) : (nibbleOf n).toFin = n := rfl

/-- The decoder reads back what the encoder laid out, one group of instructions per format of R47. -/
theorem decodeFields_encode (i : Instr) : decodeFields (fieldsOf (encode i)) = some i := by
  cases i with
  | nop | cls | ret => rfl
  | jp | call | ldI | jpV0 => simp [encode, decodeFields, fieldsOf_formatA_c, fieldsOf_formatA_nnn]
  | seByte | sneByte | ldByte | addByte | rnd | skp | sknp =>
    simp [encode, decodeFields, fieldsOf_formatXK_c, fieldsOf_formatXK_x, fieldsOf_formatXK_kk]
  | ldVxDt | ldVxK | ldDtVx | ldStVx | addI | ldF | ldB | ldMemVx | ldVxMem =>
    simp [encode, decodeFields, decodeClassF, fieldsOf_formatXK_c, fieldsOf_formatXK_x, fieldsOf_formatXK_kk]
  | seReg | sneReg | drw =>
    simp [encode, decodeFields, fieldsOf_formatXYN_c, fieldsOf_formatXYN_x, fieldsOf_formatXYN_y, fieldsOf_formatXYN_n]
  | ldReg | orReg | andReg | xorReg | addReg | subReg | shr | subn | shl =>
    simp [encode, decodeFields, decodeClass8, fieldsOf_formatXYN_c, fieldsOf_formatXYN_x, fieldsOf_formatXYN_y,
      fieldsOf_formatXYN_n]

theorem decodeWord_eq_ok : decodeWord w = .ok i ↔ decodeFields (fieldsOf w) = some i := by
  unfold decodeWord
  cases decodeFields (fieldsOf w) <;> simp

theorem decodeWord_encode (i : Instr) : decodeWord (encode i) = .ok i :=
  decodeWord_eq_ok.2 (decodeFields_encode i)

/-- Only an extra under `P_EXTRAS = OFF` is left out (R58). -/
theorem wellFormed_eq (p : Config.Params) (i : Instr) : i.wellFormed p = !decide (i.isExtra ∧ p.extras = .off) := by
  cases hx : p.extras <;> simp [Instr.wellFormed, hx]

theorem recognise_of_decodeWord (h : decodeWord w = .ok i) :
    recognise p w = if i.isExtra ∧ p.extras = .off then none else some i := by
  by_cases hx : i.isExtra ∧ p.extras = .off <;> simp [recognise, h, wellFormed_eq, hx]

/-! ### Encoding what a word decodes to -/

theorem formatA_fields {c : BitVec 4} (hc : (fieldsOf w).c = c) : formatA c (fieldsOf w).nnn = w := by
  subst hc
  exact (BitVec.extractLsb'_append_extractLsb'_eq_extractLsb' rfl).trans BitVec.extractLsb'_eq_self

/-- The high byte of a word is its class nibble before its nibble x. -/
theorem class_append_x (w : Word) : ((fieldsOf w).c ++ nibbleOf (regOf (fieldsOf w).x) : BitVec 8) = w.hiByte :=
  BitVec.extractLsb'_append_extractLsb'_eq_extractLsb' rfl

/-- The low byte of a word is its nibble y before its nibble n. -/
theorem y_append_n (w : Word) : (nibbleOf (regOf (fieldsOf w).y) ++ (fieldsOf w).n : BitVec 8) = w.loByte :=
  BitVec.extractLsb'_append_extractLsb'_eq_extractLsb' rfl

theorem formatXK_fields {c : BitVec 4} (hc : (fieldsOf w).c = c) :
    formatXK c (regOf (fieldsOf w).x) (fieldsOf w).kk = w := by
  rw [← hc, formatXK, class_append_x]
  exact Word.ofBytes_hi_lo w

theorem formatXYN_fields {c : BitVec 4} (hc : (fieldsOf w).c = c) :
    formatXYN c (regOf (fieldsOf w).x) (regOf (fieldsOf w).y) (fieldsOf w).n = w := by
  rw [← hc, formatXYN, class_append_x, y_append_n]
  exact Word.ofBytes_hi_lo w

theorem encode_of_decodeClass8 {x y : Reg} {n : BitVec 4} (h : decodeClass8 x y n = some i) :
    encode i = formatXYN 0x8 x y n := by
  unfold decodeClass8 at h
  split at h <;> cases h <;> rfl

theorem encode_of_decodeClassF {x : Reg} {kk : Byte} (h : decodeClassF x kk = some i) :
    encode i = formatXK 0xF x kk := by
  unfold decodeClassF at h
  split at h <;> cases h <;> rfl

/-- The converse of `decodeFields_encode`, by class nibble: case `h_1` is class 0, `h_16` class F. -/
theorem encode_of_decodeFields (h : decodeFields (fieldsOf w) = some i) : encode i = w := by
  unfold decodeFields at h
  split at h
  case h_1 hc =>
    rw [← formatA_fields hc]
    split at h <;> cases h <;> simp [encode, formatA, *]
  case h_2 hc | h_3 hc | h_11 hc | h_12 hc => cases h; exact formatA_fields hc
  case h_4 hc | h_5 hc | h_7 hc | h_8 hc | h_13 hc => cases h; exact formatXK_fields hc
  case h_6 hc | h_10 hc =>
    split at h
    case isTrue hn =>
      cases h
      exact (congrArg _ hn.symm).trans (formatXYN_fields hc)
    case isFalse => cases h
  case h_9 hc => exact (encode_of_decodeClass8 h).trans (formatXYN_fields hc)
  case h_14 hc => cases h; exact formatXYN_fields hc
  case h_15 hc =>
    rw [← formatXK_fields hc]
    split at h <;> cases h <;> simp [encode, *]
  case h_16 hc => exact (encode_of_decodeClassF h).trans (formatXK_fields hc)
  case h_17 => cases h

theorem encode_of_decodeWord (h : decodeWord w = .ok i) : encode i = w :=
  encode_of_decodeFields (decodeWord_eq_ok.1 h)

theorem decodeWord_of_decodeBytes {hi lo : Byte} (h : decodeBytes [hi, lo] = .ok (i, [])) :
    decodeWord (Word.ofBytes hi lo) = .ok i := by
  unfold decodeBytes at h
  cases hd : decodeWord (Word.ofBytes hi lo) <;> simp_all

/-! ### The rows of the opcode table -/

/-- An instruction's word is in its own row, one group of instructions per format and mask. -/
theorem row_has_encode (i : Instr) : i.row.has (encode i) = true := by
  cases i with
  | nop | cls | ret => rfl
  | jp | call | ldI | jpV0 => exact Laws.Row.has_formatA _ _ _
  | seByte | sneByte | ldByte | addByte | rnd => exact Laws.Row.has_formatXK _ _ _ _
  | skp | sknp | ldVxDt | ldVxK | ldDtVx | ldStVx | addI | ldF | ldB | ldMemVx | ldVxMem =>
    exact Laws.Row.has_formatX _ _ _ _
  | seReg | ldReg | orReg | andReg | xorReg | addReg | subReg | shr | subn | shl | sneReg =>
    exact Laws.Row.has_formatXY _ _ _ _ _
  | drw => exact Laws.Row.has_formatXYN _ _ _ _ _

section
variable {r : Row}

/-- A word of a row agrees with the row's fixed bits on every slice that the mask covers. -/
theorem slice_of_has (start len : Nat) (hmask : r.mask.extractLsb' start len = BitVec.allOnes len)
    (h : r.has w = true) : w.extractLsb' start len = r.fixed.extractLsb' start len := by
  have hand : w &&& r.mask = r.fixed := by simpa [Row.has] using h
  rw [← hand, BitVec.extractLsb'_and, hmask, BitVec.and_allOnes]

theorem word_of_has (hmask : r.mask = 0xFFFF) (h : r.has w = true) : w = r.fixed := by
  simpa only [BitVec.extractLsb'_eq_self] using slice_of_has 0 16 (by rw [hmask]; rfl) h

theorem class_of_has (hmask : (fieldsOf r.mask).c = 0xF) (h : r.has w = true) :
    (fieldsOf w).c = (fieldsOf r.fixed).c := slice_of_has 12 4 hmask h

theorem n_of_has (hmask : (fieldsOf r.mask).n = 0xF) (h : r.has w = true) :
    (fieldsOf w).n = (fieldsOf r.fixed).n := slice_of_has 0 4 hmask h

theorem kk_of_has (hmask : (fieldsOf r.mask).kk = 0xFF) (h : r.has w = true) :
    (fieldsOf w).kk = (fieldsOf r.fixed).kk := slice_of_has 0 8 hmask h

end

/-- A word in the row of some instruction decodes to an instruction of that row: the decoder looks only at the fields
that the row's mask fixes, one group of rows per mask. -/
theorem decodeFields_of_row_has (j : Instr) (h : j.row.has w = true) :
    ∃ i, decodeFields (fieldsOf w) = some i ∧ i.row = j.row := by
  cases j with
  | nop | cls | ret =>
    simp only [Instr.row] at h ⊢
    rw [word_of_has rfl h]
    exact ⟨_, rfl, rfl⟩
  | jp | call | seByte | sneByte | ldByte | addByte | ldI | jpV0 | rnd | drw =>
    simp only [Instr.row] at h ⊢
    exact ⟨_, by rw [decodeFields, class_of_has rfl h]; rfl, rfl⟩
  | seReg | ldReg | orReg | andReg | xorReg | addReg | subReg | shr | subn | shl | sneReg =>
    simp only [Instr.row] at h ⊢
    exact ⟨_, by rw [decodeFields, class_of_has rfl h, n_of_has rfl h]; rfl, rfl⟩
  | skp | sknp | ldVxDt | ldVxK | ldDtVx | ldStVx | addI | ldF | ldB | ldMemVx | ldVxMem =>
    simp only [Instr.row] at h ⊢
    exact ⟨_, by rw [decodeFields, class_of_has rfl h, kk_of_has rfl h]; rfl, rfl⟩

theorem exists_row_eq {r : Row} (h : r ∈ opcodeTable) : ∃ j : Instr, j.row = r := by
  obtain ⟨j, -, hj⟩ := List.mem_map.1 h
  exact ⟨j, hj⟩

/-! ### The recognised words of a class -/

/-- The extras are in classes 6, C and F (R58). -/
theorem class_of_extra (h : i.isExtra = true) : (fieldsOf (encode i)).c ∈ [0x6, 0xC, 0xF] := by
  cases i with
  | ldByte | rnd | ldF => simp [encode, fieldsOf_formatXK_c]
  | _ => cases h

/-- Outside the classes of the extras, dispatch recognises whatever decodes, under every setting. -/
theorem recognise_isSome_iff (p : Config.Params) (hc : (fieldsOf w).c ∉ [0x6, 0xC, 0xF]) :
    (recognise p w).isSome ↔ (decodeFields (fieldsOf w)).isSome := by
  cases hd : decodeFields (fieldsOf w) with
  | none => simp [recognise, decodeWord, hd]
  | some i =>
    have hx : ¬ i.isExtra = true := fun hx => hc (encode_of_decodeFields hd ▸ class_of_extra hx)
    simp [recognise_of_decodeWord (decodeWord_eq_ok.2 hd), hx]

theorem decodeFields_class0_isSome {f : Fields} (hc : f.c = 0x0#4) :
    (decodeFields f).isSome ↔ f.nnn = 0x000 ∨ f.nnn = 0x0E0 ∨ f.nnn = 0x0EE := by
  simp only [decodeFields, hc]
  split <;> simp_all

theorem decodeClass8_isSome (x y : Reg) (n : BitVec 4) :
    (decodeClass8 x y n).isSome ↔ n.toNat ≤ 7 ∨ n.toNat = 0xE := by
  unfold decodeClass8
  split
  case h_10 =>
    simp only [imp_false, Option.isSome_none, Bool.false_eq_true, false_iff] at *
    bv_omega
  all_goals simp

theorem decodeFields_classE_isSome {f : Fields} (hc : f.c = 0xE#4) :
    (decodeFields f).isSome ↔ f.kk = 0x9E ∨ f.kk = 0xA1 := by
  simp only [decodeFields, hc]
  split <;> simp_all

theorem fieldsOf_c_toNat (w : Word) : (fieldsOf w).c.toNat = w.toNat / 4096 := by
  simp only [fieldsOf, BitVec.extractLsb'_toNat, Nat.shiftRight_eq_div_pow]
  omega

theorem fieldsOf_n_toNat (w : Word) : (fieldsOf w).n.toNat = w.toNat % 16 := by
  simp [fieldsOf]

theorem fieldsOf_kk_toNat (w : Word) : (fieldsOf w).kk.toNat = w.toNat % 256 := by
  simp [fieldsOf]

/-- Two words of one class are equal when their addresses are. -/
theorem eq_iff_nnn_eq {v : Word} (hc : (fieldsOf w).c = (fieldsOf v).c) :
    w = v ↔ (fieldsOf w).nnn = (fieldsOf v).nnn := by
  refine ⟨fun h => h ▸ rfl, fun hnnn => ?_⟩
  rw [← formatA_fields hc, hnnn, formatA_fields rfl]

theorem recognise_class0_isSome (p : Config.Params) (hc : (fieldsOf w).c = 0x0) :
    (recognise p w).isSome ↔ w = 0x0000 ∨ w = 0x00E0 ∨ w = 0x00EE := by
  rw [recognise_isSome_iff p (by simp [hc]), decodeFields_class0_isSome hc, eq_iff_nnn_eq (v := 0x0000) hc,
    eq_iff_nnn_eq (v := 0x00E0) hc, eq_iff_nnn_eq (v := 0x00EE) hc]
  rfl

theorem recognise_class8_isSome (p : Config.Params) (hc : (fieldsOf w).c = 0x8) :
    (recognise p w).isSome ↔ w.toNat % 16 ≤ 7 ∨ w.toNat % 16 = 0xE := by
  rw [recognise_isSome_iff p (by simp [hc]), decodeFields, hc, ← fieldsOf_n_toNat]
  exact decodeClass8_isSome _ _ _

theorem recognise_classE_isSome (p : Config.Params) (hc : (fieldsOf w).c = 0xE) :
    (recognise p w).isSome ↔ w.toNat % 256 = 0x9E ∨ w.toNat % 256 = 0xA1 := by
  rw [recognise_isSome_iff p (by simp [hc]), decodeFields_classE_isSome hc, ← BitVec.toNat_inj, ← BitVec.toNat_inj,
    fieldsOf_kk_toNat]
  rfl

end Sys2Proof

namespace Sys2Proof.Machine

variable {s : State}

theorem step_of_fetch_outside (h : 0xFFF ≤ s.pc.toNat) : step s = .fault (.outOfBounds (max s.pc.toNat 0x1000)) := by
  obtain ⟨-, he⟩ | ⟨w, hpc, -⟩ := step_cases s
  · exact he
  · omega

theorem step_of_recognised {i : Instr} (hpc : s.pc.toNat < 0xFFF)
    (h : recognise s.params (Word.ofBytes (byteAt s s.pc.toNat) (byteAt s (s.pc.toNat + 1))) = some i) :
    step s = exec i (advance s) := by
  simp [step, fetch_ok s hpc, h]

end Sys2Proof.Machine

open Sys2Proof Sys2Proof.Machine

/-- Settles O1: decoding an encoding is a computation on the fields of its format, and dispatch then leaves out only an
extra under `P_EXTRAS = OFF`. -/
theorem decodeEncodeRoundTrip : Obligations.DecodeEncodeRoundTrip :=
  fun _ i => ⟨decodeWord_encode i, recognise_of_decodeWord (decodeWord_encode i)⟩

/-- Settles O2: a word is the format built from its own fields. -/
theorem encodeOfDecodedWord : Obligations.EncodeOfDecodedWord :=
  fun _ _ => encode_of_decodeWord

/-- Settles O3: a row's mask fixes the fields that the decoder looks at; conversely a word that decodes is an encoding,
which is in its instruction's row. -/
theorem decoderFollowsTable : Obligations.DecoderFollowsTable := by
  intro w r hr
  obtain ⟨j, rfl⟩ := exists_row_eq hr
  constructor
  · intro h
    obtain ⟨i, hi, hrow⟩ := decodeFields_of_row_has j h
    exact ⟨i, decodeWord_eq_ok.2 hi, hrow⟩
  · rintro ⟨i, hi, hrow⟩
    rw [← hrow, ← encode_of_decodeWord hi]
    exact row_has_encode i

/-- Settles O4, one class at a time. -/
theorem reservedWordsUnrecognised : Obligations.ReservedWordsUnrecognised := by
  intro p w
  simp only [← fieldsOf_c_toNat]
  exact ⟨fun hc => recognise_class0_isSome p (BitVec.eq_of_toNat_eq hc),
    fun hc => recognise_class8_isSome p (BitVec.eq_of_toNat_eq hc),
    fun hc => recognise_classE_isSome p (BitVec.eq_of_toNat_eq hc)⟩

/-- Settles O5: the decoder evaluates. -/
theorem sampleWordsDecode : Obligations.SampleWordsDecode := by
  unfold Obligations.SampleWordsDecode
  decide

/-- Settles O6: the two bytes that decode are the fetched word, which dispatch recognises. -/
theorem stepRunsDecodedInstruction : Obligations.StepRunsDecodedInstruction := by
  intro s i hpc hdec hwf
  exact step_of_recognised hpc ((recognise_eq_some _ _ _).2 ⟨decodeWord_of_decodeBytes hdec, hwf⟩)

/-- Settles O7: the first byte address outside memory is PC, or 0x1000 when PC is the last address. -/
theorem fetchOutsideMemoryFaults : Obligations.FetchOutsideMemoryFaults := by
  intro s
  refine ⟨fun h => ?_, fun h => ?_⟩
  · rw [step_of_fetch_outside h.le, max_eq_left h]
  · rw [step_of_fetch_outside h.ge, h]
    rfl

end

/-! ## No-op, clear and return, and a draw after a clear (40_noop_clear_return.md, 47_display.md)

Each instruction's next state is written out once, then its frame; for a draw the next state is read off the canvas that
`drawRows_draws` describes. -/

section
namespace Sys2Proof.Machine

variable {s t : State}

/-! ### Frames -/

theorem changesOnly_setFb (s : State) (fb : Framebuffer) : ChangesOnly [.fb] s (setFb s fb) := by
  intro p hp
  cases p with
  | fb => simp at hp
  | regs | mem => intro _; rfl
  | _ => rfl

theorem changesOnly_pc_sp (s : State) (a : Word) (n : Fin 17) : ChangesOnly [.pc, .sp] s { s with pc := a, sp := n } := by
  intro p hp
  cases p with
  | pc | sp => simp at hp
  | regs | mem => intro _; rfl
  | fb => intro _ _; rfl
  | _ => rfl

/-! ### One instruction, and several -/

theorem exec_cls (s : State) : exec .cls s = .next (setFb s Framebuffer.clear) := rfl

/-- A return from a non-empty stack: the top entry to PC, SP down by one, all else as before (R65). -/
theorem exec_ret_next {k : Fin 16} (hk : s.sp.val = k.val + 1) :
    exec .ret s = .next { s with pc := s.stack[k], sp := k.castSucc } := by
  simp [exec, execRet, pop_ok s (by omega), setPc, hk, Fin.ext_iff]

theorem exec_ret_empty (h : s.sp = 0) : exec .ret s = .fault (.stackUnderflow (s.pc - 2)) := by
  simp [exec, execRet, pop_empty s h, raise]

theorem execAll_cons {i : Instr} (h : exec i s = .next t) (is : List Instr) : execAll (i :: is) s = execAll is t := by
  simp [execAll, h]

theorem execAll_singleton {i : Instr} (h : exec i s = .next t) : execAll [i] s = .next t :=
  execAll_cons h []

/-! ### Drawing -/

/-- The framebuffer and the collision flag after `Dxyn`, its sprite being inside memory (R93). -/
def drawnCanvas (s : State) (x y : Reg) (n : Fin 16) : Canvas :=
  drawRows (readReg s x).toNat (readReg s y).toNat 0 (bytesAt s s.idx.toNat n.val) (s.fb, false)

theorem drawnCanvas_draws (s : State) (x y : Reg) (n : Fin 16) :
    Draws (s.fb, false) (drawnCanvas s x y n)
      (SpriteCovers (bytesAt s s.idx.toNat n.val) (readReg s x).toNat (readReg s y).toNat) :=
  drawRows_draws _ _ _ (by simp; omega) _

theorem exec_drw_next {n : Fin 16} (h : n = 0 ∨ s.idx.toNat + n.val ≤ 0x1000) (x y : Reg) :
    exec (.drw x y n) s =
      .next (writeReg (setFb s (drawnCanvas s x y n).1) 15 (flagByte (drawnCanvas s x y n).2)) := by
  have hload : loadBlock s (idxBase s) n.val = .ok (bytesAt s s.idx.toNat n.val) :=
    loadBlock_ok s _ _ (h.imp_left (congrArg Fin.val))
  simp only [exec, execDrw, hload]
  rfl

/-- Drawing on a clear canvas: toggled is set, and no pixel was there to collide with. -/
theorem Draws.of_clear {k : Canvas} {S : Fin 32 → Fin 64 → Prop} (h : Draws (Framebuffer.clear, false) k S) :
    (∀ y x, k.1.pixel y x = true ↔ S y x) ∧ k.2 = false := by
  obtain ⟨hpixels, hflag⟩ := h
  simp only [Framebuffer.pixel_clear, ne_eq, Bool.not_eq_false] at hpixels
  exact ⟨hpixels, by simpa [Framebuffer.pixel_clear] using hflag⟩

end Sys2Proof.Machine

open Sys2Proof Sys2Proof.Machine

/-- Settles O30: the draw starts from the clear canvas, and the clear has left the sprite, I and the coordinates alone. -/
theorem clearThenDrawShowsSprite : Obligations.ClearThenDrawShowsSprite := by
  intro s x y n hn
  have hdraw := exec_drw_next (s := setFb s Framebuffer.clear) hn x y
  obtain ⟨hpixels, hflag⟩ := (drawnCanvas_draws (setFb s Framebuffer.clear) x y n).of_clear
  refine ⟨_, (execAll_cons (exec_cls s) _).trans (execAll_singleton hdraw), ?_, hpixels⟩
  rw [readReg_writeReg, if_pos rfl, hflag]
  rfl

/-- Settles O10: two zero bytes decode to NOP, which leaves the advanced state as it is. -/
theorem nopOnlyAdvances : Obligations.NopOnlyAdvances := by
  intro s
  refine ⟨rfl, fun hpc hhi hlo => ?_⟩
  have hdec : decodeBytes [byteAt s s.pc.toNat, byteAt s (s.pc.toNat + 1)] = .ok (.nop, []) := by
    rw [hhi, hlo]; rfl
  exact stepRunsDecodedInstruction s .nop hpc hdec rfl

/-- Settles O11: the framebuffer is replaced by the clear one, and nothing else is written. -/
theorem clsClearsEveryPixel : Obligations.ClsClearsEveryPixel :=
  fun s => ⟨_, exec_cls s, Framebuffer.pixel_clear, changesOnly_setFb s _⟩

/-- Settles O12, from the two cases of a pop. -/
theorem retPopsReturnAddress : Obligations.RetPopsReturnAddress :=
  fun s => ⟨fun _ hk => ⟨_, exec_ret_next hk, rfl, rfl, changesOnly_pc_sp s _ _⟩, exec_ret_empty⟩

end

/-! ## Jump and call, and nested calls (41_jump_call.md)

A call and the return that matches it enclose the calls and returns nested inside; these give the stack back changed only
above the entry the call pushed, so the return finds the caller's PC. -/

section
namespace Sys2Proof.Machine

variable {s t : State} {k : Fin 16}

/-! ### Frames -/

/-- A frame gets narrower by each part that agrees after all. -/
theorem ChangesOnly.erase {ps : List Part} {p : Part} (h : ChangesOnly ps s t) (hp : p.same s t) :
    ChangesOnly (ps.erase p) s t := by
  intro q hq
  obtain rfl | hne := eq_or_ne q p
  · exact hp
  · exact h q fun hmem => hq ((List.mem_erase_of_ne hne).2 hmem)

theorem changesOnly_pc_sp_stack (s : State) (a : Word) (n : Fin 17) (v : Vector Word 16) :
    ChangesOnly [.pc, .sp, .stack] s { s with pc := a, sp := n, stack := v } := by
  intro p hp
  cases p with
  | pc | sp | stack => simp at hp
  | regs | mem => intro _; rfl
  | fb => intro _ _; rfl
  | _ => rfl

theorem changesOnly_setStack (s : State) (v : Vector Word 16) : ChangesOnly [.stack] s { s with stack := v } :=
  ((changesOnly_pc_sp_stack s s.pc s.sp v).erase (p := .pc) rfl).erase (p := .sp) rfl

theorem changesOnly_setPc (s : State) (a : Word) : ChangesOnly [.pc] s (setPc s a) :=
  (changesOnly_pc_sp s a s.sp).erase (p := .sp) rfl

/-! ### One jump, one call -/

theorem exec_jp (nnn : Addr) (s : State) : exec (.jp nnn) s = .next (setPc s (addrOperand nnn)) := rfl

/-- A call with room on the stack: the advanced PC pushed, SP up by one, PC at nnn, all else as before (R67). -/
theorem exec_call_next (nnn : Addr) (hk : s.sp.val = k.val) :
    exec (.call nnn) s =
      .next { s with pc := addrOperand nnn, sp := k.succ, stack := s.stack.set k.val s.pc } := by
  simp [exec, execCall, push_ok s s.pc (by omega), setPc, hk, Fin.ext_iff]

theorem exec_call_full (nnn : Addr) (h : s.sp = 16) : exec (.call nnn) s = .fault (.stackOverflow (s.pc - 2)) := by
  simp [exec, execCall, push_full s s.pc h, raise]

/-- `Vector.getElem_set_ne` for indices that carry their bound. -/
theorem stack_set_other (stack : Vector Word 16) {j : Fin 16} (v : Word) (h : j ≠ k) :
    (stack.set k.val v)[j] = stack[j] :=
  Vector.getElem_set_ne _ _ fun hkj => h (Fin.ext hkj.symm)

/-! ### Nested calls and returns -/

theorem execAll_append {is : List Instr} (h : execAll is s = .next t) (js : List Instr) :
    execAll (is ++ js) s = execAll js t := by
  induction is generalizing s with
  | nil => cases h; rfl
  | cons i is ih =>
    cases e : exec i s with
    | next u =>
      rw [execAll_cons e] at h
      rw [List.cons_append, execAll_cons e, ih h]
    | fault f => simp [execAll, e] at h
    | refused r => simp [execAll, e] at h

/-- Calls of these targets one inside the other, then a return for each. -/
def nestedCalls (targets : List Addr) : List Instr :=
  targets.map .call ++ List.replicate targets.length .ret

theorem nestedCalls_cons (nnn : Addr) (targets : List Addr) :
    nestedCalls (nnn :: targets) = .call nnn :: (nestedCalls targets ++ [.ret]) := by
  simp [nestedCalls, List.replicate_succ']

/-- The return that matches a call: whatever was done to the stack above SP in between, the state is the caller's, with
that stack. -/
theorem exec_ret_of_call (nnn : Addr) (hk : s.sp.val = k.val) {v : Vector Word 16} (hv : v[k] = s.pc) :
    exec .ret { s with pc := addrOperand nnn, sp := k.succ, stack := v } = .next { s with stack := v } := by
  have hsp : k.castSucc = s.sp := Fin.ext hk.symm
  rw [exec_ret_next (k := k) rfl, hv, hsp]

/-- W1, by induction on the targets: the inner calls start one entry higher, so they keep the entry of the outer one. -/
theorem execAll_nestedCalls (targets : List Addr) (s : State) (hroom : s.sp.val + targets.length ≤ 16) :
    ∃ v : Vector Word 16, execAll (nestedCalls targets) s = .next { s with stack := v } ∧
      ∀ j : Fin 16, j.val < s.sp.val → v[j] = s.stack[j] := by
  induction targets generalizing s with
  | nil => exact ⟨s.stack, rfl, fun _ _ => rfl⟩
  | cons nnn targets ih =>
    rw [List.length_cons] at hroom
    obtain ⟨k, hk⟩ : ∃ k : Fin 16, s.sp.val = k.val := ⟨⟨s.sp.val, by omega⟩, rfl⟩
    have hcall := exec_call_next nnn hk
    obtain ⟨v, hinner, hbelow⟩ :=
      ih { s with pc := addrOperand nnn, sp := k.succ, stack := s.stack.set k.val s.pc } (by simp; omega)
    simp only [Fin.val_succ] at hbelow
    have htop : v[k] = s.pc := (hbelow k (by omega)).trans (Vector.getElem_set_self _)
    refine ⟨v, ?_, fun j hj => ?_⟩
    · rw [nestedCalls_cons, execAll_cons hcall, execAll_append hinner]
      exact execAll_singleton (exec_ret_of_call nnn hk htop)
    · have hjk : j ≠ k := by rintro rfl; omega
      rw [hbelow j (by omega), stack_set_other _ _ hjk]

end Sys2Proof.Machine

open Sys2Proof.Machine

/-- Settles O14: the nested calls and returns change the stack above SP, and no other part. -/
theorem nestedCallsReturn : Obligations.NestedCallsReturn := by
  intro s targets hroom
  obtain ⟨v, hexec, hbelow⟩ := execAll_nestedCalls targets s hroom
  exact ⟨_, hexec, rfl, rfl, hbelow, changesOnly_setStack s v⟩

/-- Settles O13, from the two cases of a push. -/
theorem callPushesAdvancedPc : Obligations.CallPushesAdvancedPc :=
  fun s nnn => ⟨fun _ hk => ⟨_, exec_call_next nnn hk, Vector.getElem_set_self _, fun _ hj => stack_set_other _ _ hj, rfl,
    addrOperand_toNat nnn, changesOnly_pc_sp_stack s _ _ _⟩, exec_call_full nnn⟩

/-- Settles O15: the jump is one write of PC. -/
theorem jumpSetsPc : Obligations.JumpSetsPc :=
  fun s nnn => ⟨_, exec_jp nnn s, addrOperand_toNat nnn, changesOnly_setPc s _⟩

end

/-! ## Skips on registers (42_skips.md)

A skip if equal and the skip if not equal over the same two bytes are one mechanism, R68, under opposite conditions: of the
two, exactly one moves PC. -/

section
namespace Sys2Proof.Machine

theorem exec_seByte (x : Reg) (kk : Byte) (s : State) :
    exec (.seByte x kk) s = .next (skipIf (readReg s x == kk) s) := rfl

theorem exec_sneByte (x : Reg) (kk : Byte) (s : State) :
    exec (.sneByte x kk) s = .next (skipIf (readReg s x != kk) s) := rfl

theorem exec_seReg (x y : Reg) (s : State) :
    exec (.seReg x y) s = .next (skipIf (readReg s x == readReg s y) s) := rfl

theorem exec_sneReg (x y : Reg) (s : State) :
    exec (.sneReg x y) s = .next (skipIf (readReg s x != readReg s y) s) := rfl

theorem changesOnly_skipIf (c : Bool) (s : State) : ChangesOnly [.pc] s (skipIf c s) := by
  cases c with
  | true => exact changesOnly_setPc s (s.pc + 2)
  | false => exact changesOnly_setPc s s.pc

theorem skipIf_beq_pc (a b : Byte) (s : State) : (skipIf (a == b) s).pc = if a = b then s.pc + 2 else s.pc := by
  simp only [skipIf_pc, beq_iff_eq]

theorem skipIf_bne_pc (a b : Byte) (s : State) : (skipIf (a != b) s).pc = if a = b then s.pc else s.pc + 2 := by
  simp only [skipIf_pc, bne_iff_ne, ne_eq, ite_not]

end Sys2Proof.Machine

open Sys2Proof.Machine

/-- Settles O17: SE and SNE compare Vx with kk and skip under opposite conditions. -/
theorem skipsOnByte : Obligations.SkipsOnByte :=
  fun s x kk => ⟨_, _, exec_seByte x kk s, exec_sneByte x kk s, skipIf_beq_pc _ _ s, skipIf_bne_pc _ _ s,
    changesOnly_skipIf _ s, changesOnly_skipIf _ s⟩

/-- Settles O18: the same skips, comparing Vx with Vy; x = y is no special case. -/
theorem skipsOnRegisters : Obligations.SkipsOnRegisters :=
  fun s x y => ⟨_, _, exec_seReg x y s, exec_sneReg x y s, skipIf_beq_pc _ _ s, skipIf_bne_pc _ _ s,
    changesOnly_skipIf _ s, changesOnly_skipIf _ s⟩

end

/-! ## Loads and bitwise operations (43_load_bitwise.md)

Each of these instructions is one write of Vx, which is the register's rule and its frame; only `Cxkk` also moves the
counter of draws. -/

section
namespace Sys2Proof.Machine

/-! ### One write of a register -/

theorem readReg_writeReg_self (s : State) (x : Reg) (v : Byte) : readReg (writeReg s x v) x = v := by
  rw [readReg_writeReg, if_pos rfl]

theorem otherRegsSame_writeReg (s : State) (x : Reg) (v : Byte) : OtherRegsSame [x] s (writeReg s x v) := by
  intro r hr
  rw [readReg_writeReg, if_neg (List.ne_of_not_mem_cons hr)]

/-! ### Frames -/

theorem changesOnly_regs_draws (s : State) (v : Vector Byte 16) (n : Nat) :
    ChangesOnly [.regs, .draws] s { s with regs := v, draws := n } := by
  intro p hp
  cases p with
  | regs | draws => simp at hp
  | mem => intro _; rfl
  | fb => intro _ _; rfl
  | _ => rfl

/-- The frame of every instruction that writes only registers, one or several. -/
theorem changesOnly_setRegs (s : State) (v : Vector Byte 16) : ChangesOnly [.regs] s { s with regs := v } :=
  (changesOnly_regs_draws s v s.draws).erase (p := .draws) rfl

theorem writeReg_frame (s : State) (x : Reg) (v : Byte) :
    OtherRegsSame [x] s (writeReg s x v) ∧ ChangesOnly [.regs] s (writeReg s x v) :=
  ⟨otherRegsSame_writeReg s x v, changesOnly_setRegs s _⟩

/-! ### The instructions -/

theorem exec_ldByte (x : Reg) (kk : Byte) (s : State) : exec (.ldByte x kk) s = .next (writeReg s x kk) := rfl

theorem exec_rnd (x : Reg) (kk : Byte) (s : State) :
    exec (.rnd x kk) s = .next (writeReg (draw s).2 x (Config.freeByte s.draws &&& kk)) := rfl

theorem exec_ldReg (x y : Reg) (s : State) : exec (.ldReg x y) s = .next (writeReg s x (readReg s y)) := rfl

theorem exec_orReg (x y : Reg) (s : State) :
    exec (.orReg x y) s = .next (writeReg s x (readReg s x ||| readReg s y)) := rfl

theorem exec_andReg (x y : Reg) (s : State) :
    exec (.andReg x y) s = .next (writeReg s x (readReg s x &&& readReg s y)) := rfl

theorem exec_xorReg (x y : Reg) (s : State) :
    exec (.xorReg x y) s = .next (writeReg s x (readReg s x ^^^ readReg s y)) := rfl

end Sys2Proof.Machine

open Sys2Proof.Machine

/-- Settles O19: each of the four is one write of Vx, with both sources read before it, so x = y and x = 0xF are no special
cases. -/
theorem copyAndBitwiseResults : Obligations.CopyAndBitwiseResults := by
  intro s x y
  refine ⟨_, _, _, _, exec_ldReg x y s, exec_orReg x y s, exec_andReg x y s, exec_xorReg x y s,
    readReg_writeReg_self s x _, fun b _ => ?_, fun b _ => ?_, fun b _ => ?_, ?frames⟩
  · rw [readReg_writeReg_self, BitVec.getLsbD_or]
  · rw [readReg_writeReg_self, BitVec.getLsbD_and]
  · rw [readReg_writeReg_self, BitVec.getLsbD_xor]
  case frames => simp [writeReg_frame]

/-- Settles O20: the draw moves its counter and no register, so both loads are one write of Vx. -/
theorem extraByteLoads : Obligations.ExtraByteLoads :=
  fun s x kk => ⟨_, _, exec_ldByte x kk s, exec_rnd x kk s, readReg_writeReg_self s x kk, otherRegsSame_writeReg s x kk,
    changesOnly_setRegs s _, readReg_writeReg_self _ x _, rfl, otherRegsSame_writeReg (draw s).2 x _,
    changesOnly_regs_draws s _ _⟩

end

/-! ## Arithmetic with a flag (44_arith_flags.md)

Each of these instructions is one write of a result and its flag (R80): both operands are read before it, so a source may be
VF, and the flag goes last, so VF ends as the flag when it is the destination too. What is left to say of each instruction is
its arithmetic, on the two bytes alone. -/

section
namespace Sys2Proof.Machine

/-! ### One write of a result and its flag -/

/-- VF ends as the flag, whichever register the result goes to. -/
theorem readReg_writeResultFlag_flag (s : State) (x : Reg) (r : Byte × Bool) :
    readReg (writeResultFlag s x r) 15 = flagByte r.2 := by
  rw [readReg_writeResultFlag, if_pos rfl]

theorem readReg_writeResultFlag_dest {x : Reg} (hx : x ≠ 15) (s : State) (r : Byte × Bool) :
    readReg (writeResultFlag s x r) x = r.1 := by
  rw [readReg_writeResultFlag, if_neg hx, if_pos rfl]

theorem otherRegsSame_writeResultFlag (s : State) (x : Reg) (r : Byte × Bool) :
    OtherRegsSame [x, 15] s (writeResultFlag s x r) := by
  intro q hq
  obtain ⟨hqx, hq15⟩ : q ≠ x ∧ q ≠ 15 := by simpa using hq
  rw [readReg_writeResultFlag, if_neg hq15, if_neg hqx]

theorem writeResultFlag_frame (s : State) (x : Reg) (r : Byte × Bool) :
    OtherRegsSame [x, 15] s (writeResultFlag s x r) ∧ ChangesOnly [.regs] s (writeResultFlag s x r) :=
  ⟨otherRegsSame_writeResultFlag s x r, changesOnly_setRegs s _⟩

/-! ### The arithmetic on two bytes -/

theorem flagByte_decide (p : Prop) [Decidable p] : flagByte (decide p) = if p then 1 else 0 := by
  simp only [flagByte, decide_eq_true_eq]

theorem addWithCarry_sum (a b : Byte) : (addWithCarry a b).1.toNat = (a.toNat + b.toNat) % 256 :=
  BitVec.toNat_ofNat _ _

theorem addWithCarry_flag (a b : Byte) :
    flagByte (addWithCarry a b).2 = if a.toNat + b.toNat > 255 then 1 else 0 :=
  flagByte_decide _

/-- The exact difference may be negative; 256 more is not, and is the same modulo 256. -/
theorem subNoBorrow_difference (m n : Byte) : (subNoBorrow m n).1.toNat = (256 + m.toNat - n.toNat) % 256 := by
  have hn : n.toNat < 256 := n.isLt
  simp only [subNoBorrow, BitVec.toNat_ofInt]
  omega

theorem subNoBorrow_flag (m n : Byte) : flagByte (subNoBorrow m n).2 = if m.toNat ≥ n.toNat then 1 else 0 :=
  flagByte_decide _

/-! ### The instructions -/

theorem exec_addByte (x : Reg) (kk : Byte) (s : State) :
    exec (.addByte x kk) s = .next (writeResultFlag s x (addWithCarry (readReg s x) kk)) := rfl

theorem exec_addReg (x y : Reg) (s : State) :
    exec (.addReg x y) s = .next (writeResultFlag s x (addWithCarry (readReg s x) (readReg s y))) := rfl

theorem exec_subReg (x y : Reg) (s : State) :
    exec (.subReg x y) s = .next (writeResultFlag s x (subNoBorrow (readReg s x) (readReg s y))) := rfl

theorem exec_subn (x y : Reg) (s : State) :
    exec (.subn x y) s = .next (writeResultFlag s x (subNoBorrow (readReg s y) (readReg s x))) := rfl

end Sys2Proof.Machine

open Sys2Proof.Machine

/-- Settles O21: both additions write a sum with its carry, and differ in the second operand only. -/
theorem additionSetsCarry : Obligations.AdditionSetsCarry := by
  intro s x y kk
  refine ⟨_, _, exec_addByte x kk s, exec_addReg x y s, fun hx => ?_, fun hx => ?_, ?_, ?_, ?frames⟩
  · rw [readReg_writeResultFlag_dest hx, addWithCarry_sum]
  · rw [readReg_writeResultFlag_dest hx, addWithCarry_sum]
  · rw [readReg_writeResultFlag_flag, addWithCarry_flag]
  · rw [readReg_writeResultFlag_flag, addWithCarry_flag]
  case frames => simp [writeResultFlag_frame]

/-- Settles O22: both subtractions write a difference with its no-borrow flag; 8xy7 exchanges the operands of 8xy5. -/
theorem subtractionSetsNoBorrow : Obligations.SubtractionSetsNoBorrow := by
  intro s x y
  refine ⟨_, _, exec_subReg x y s, exec_subn x y s, fun hx => ?_, fun hx => ?_, ?_, ?_, ?frames⟩
  · rw [readReg_writeResultFlag_dest hx, subNoBorrow_difference]
  · rw [readReg_writeResultFlag_dest hx, subNoBorrow_difference]
  · rw [readReg_writeResultFlag_flag, subNoBorrow_flag]
  · rw [readReg_writeResultFlag_flag, subNoBorrow_flag]
  case frames => simp [writeResultFlag_frame]

end

/-! ## Shifts (45_shifts.md)

Both shifts are again one write of a result and its flag. What is left is which register they read, which P_SHIFT_SRC says
(D7), and the shift by one bit on that register's byte. -/

section
namespace Sys2Proof.Machine

/-! ### The source register -/

/-- `shiftSource` is the one register that both settings of P_SHIFT_SRC ask for (R85, D7). -/
theorem shiftSource_eq {p : Config.Params} {x y src : Reg} (hx : p.shiftSrc = .x → src = x)
    (hy : p.shiftSrc = .y → src = y) : shiftSource p x y = src := by
  unfold shiftSource
  cases hp : p.shiftSrc with
  | x => exact (hx hp).symm
  | y => exact (hy hp).symm

/-! ### The shift of one byte -/

theorem shiftRight_result (v : Byte) : (shiftRight v).1.toNat = v.toNat / 2 := by
  simp only [shiftRight, BitVec.toNat_ushiftRight, Nat.shiftRight_one]

theorem shiftLeft_result (v : Byte) : (shiftLeft v).1.toNat = 2 * v.toNat % 256 := by
  simp only [shiftLeft, BitVec.toNat_shiftLeft, Nat.shiftLeft_eq]
  omega

/-- Bit 0 is set exactly in the odd bytes. -/
theorem shiftRight_flag (v : Byte) : flagByte (shiftRight v).2 = if v.toNat % 2 = 1 then 1 else 0 := by
  have hbit : v.getLsbD 0 = decide (v.toNat % 2 = 1) := Nat.testBit_zero v.toNat
  rw [shiftRight, hbit, flagByte_decide]

/-- Bit 7 is the top bit of a byte, so it is set exactly from 128 on. -/
theorem shiftLeft_flag (v : Byte) : flagByte (shiftLeft v).2 = if v.toNat ≥ 128 then 1 else 0 := by
  have hbit : v.getLsbD 7 = decide (v.toNat ≥ 128) := BitVec.msb_eq_decide v
  rw [shiftLeft, hbit, flagByte_decide]

/-! ### The instructions -/

theorem exec_shr (x y : Reg) (s : State) :
    exec (.shr x y) s = .next (writeResultFlag s x (shiftRight (readReg s (shiftSource s.params x y)))) := rfl

theorem exec_shl (x y : Reg) (s : State) :
    exec (.shl x y) s = .next (writeResultFlag s x (shiftLeft (readReg s (shiftSource s.params x y)))) := rfl

end Sys2Proof.Machine

open Sys2Proof.Machine

/-- Settles O23: both shifts write the shifted source with the bit shifted out, which is read before either write. -/
theorem shiftsSetShiftedOutBit : Obligations.ShiftsSetShiftedOutBit := by
  intro s x y src hsx hsy
  refine ⟨_, _, exec_shr x y s, exec_shl x y s, ?_⟩
  rw [shiftSource_eq hsx hsy]
  refine ⟨fun hx => ?_, fun hx => ?_, ?_, ?_, ?frames⟩
  · rw [readReg_writeResultFlag_dest hx, shiftRight_result]
  · rw [readReg_writeResultFlag_dest hx, shiftLeft_result]
  · rw [readReg_writeResultFlag_flag, shiftRight_flag]
  · rw [readReg_writeResultFlag_flag, shiftLeft_flag]
  case frames => simp [writeResultFlag_frame]

end

/-! ## Index register and offset jump (46_index_offset_jump.md)

Each of these instructions is one write of I or PC. What is left to say is the 16-bit number written: `Bnnn` cannot reach
65536 and so never wraps (D2), `Fx1E` can and does (D6), and `Fx29` has a meaning only for a hex digit (D11). -/

section
namespace Sys2Proof.Machine

variable {s : State} {x : Reg}

theorem changesOnly_setIdx (s : State) (a : Word) : ChangesOnly [.idx] s (setIdx s a) := by
  intro p hp
  cases p with
  | idx => simp at hp
  | regs | mem => intro _; rfl
  | fb => intro _ _; rfl
  | _ => rfl

/-! ### The number written -/

theorem byte_setWidth_toNat (b : Byte) : (b.setWidth 16).toNat = b.toNat :=
  BitVec.toNat_setWidth_of_le (by decide)

/-- The largest sum is 0xFFF + 0xFF = 0x10FE, which 16 bits hold: no wrap. -/
theorem addrOperand_add_byte_toNat (nnn : Addr) (b : Byte) :
    (addrOperand nnn + b.setWidth 16).toNat = nnn.toNat + b.toNat := by
  have hnnn : nnn.toNat < 0x1000 := nnn.isLt
  have hb : b.toNat < 0x100 := b.isLt
  rw [BitVec.toNat_add, addrOperand_toNat, byte_setWidth_toNat]
  exact Nat.mod_eq_of_lt (by omega)

theorem word_add_byte_toNat (a : Word) (b : Byte) : (a + b.setWidth 16).toNat = (a.toNat + b.toNat) % 65536 := by
  rw [BitVec.toNat_add, byte_setWidth_toNat]

/-- The glyph of the last digit starts at 0x4B, so no digit's address wraps. -/
theorem glyphAddress_toNat {d : Nat} (hd : d < 16) : (BitVec.ofNat 16 (5 * d)).toNat = 5 * d :=
  (BitVec.toNat_ofNat _ _).trans (Nat.mod_eq_of_lt (by omega))

/-! ### The instructions -/

theorem exec_ldI (nnn : Addr) (s : State) : exec (.ldI nnn) s = .next (setIdx s (addrOperand nnn)) := rfl

theorem exec_jpV0 (nnn : Addr) (s : State) :
    exec (.jpV0 nnn) s = .next (setPc s (addrOperand nnn + (readReg s 0).setWidth 16)) := rfl

theorem exec_addI (x : Reg) (s : State) :
    exec (.addI x) s = .next (setIdx s (s.idx + (readReg s x).setWidth 16)) := rfl

theorem exec_ldF_digit (h : (readReg s x).toNat < 16) :
    exec (.ldF x) s = .next (setIdx s (BitVec.ofNat 16 (5 * (readReg s x).toNat))) := by
  simp [exec, execLdF, hexDigitOperand_ok s x h]

theorem exec_ldF_outOfBounds (h : 16 ≤ (readReg s x).toNat) :
    exec (.ldF x) s = .fault (.outOfBounds (readReg s x).toNat) := by
  simp [exec, execLdF, hexDigitOperand_error s x h, raise]

end Sys2Proof.Machine

open Sys2Proof.Machine

/-- Settles O16: one write of PC, with a sum that 16 bits hold, so it is exact without a mask. -/
theorem offsetJumpAddsV0 : Obligations.OffsetJumpAddsV0 :=
  fun s nnn => ⟨_, exec_jpV0 nnn s, addrOperand_add_byte_toNat nnn _, changesOnly_setPc s _⟩

/-- Settles O24: one write of I with the zero-extended address. -/
theorem loadIndexAddress : Obligations.LoadIndexAddress :=
  fun s nnn => ⟨_, exec_ldI nnn s, addrOperand_toNat nnn, changesOnly_setIdx s _⟩

/-- Settles O25: one write of I, so VF stays as it was even when the 16-bit sum wraps. -/
theorem addIndexWraps : Obligations.AddIndexWraps :=
  fun s x => ⟨_, exec_addI x s, word_add_byte_toNat s.idx _, changesOnly_setIdx s _⟩

/-- Settles O26, from the two cases of a hex-digit operand. -/
theorem fontGlyphAddress : Obligations.FontGlyphAddress := by
  intro s x
  refine ⟨fun hdigit => ?_, exec_ldF_outOfBounds⟩
  have hlt : (readReg s x).toNat < 16 := Nat.lt_succ_of_le hdigit
  exact ⟨_, exec_ldF_digit hlt, glyphAddress_toNat hlt, changesOnly_setIdx s _⟩

end

/-! ## Drawing (47_display.md)

`drawnCanvas_draws` says what a draw does to the framebuffer and to the collision flag. What is left is the frame of its two
writes, the flag as a byte, the sprite that does not fit in memory, and a second draw over the same pixels. -/

section
namespace Sys2Proof.Machine

variable {s t u : State} {x y : Reg} {n : Fin 16}

/-! ### Frames one after the other -/

theorem Part.same_trans {p : Part} (hst : p.same s t) (htu : p.same t u) : p.same s u := by
  cases p with
  | regs | mem => exact fun a => (htu a).trans (hst a)
  | fb => exact fun y x => (htu y x).trans (hst y x)
  | _ => exact Eq.trans htu hst

theorem ChangesOnly.trans {ps qs : List Part} (hst : ChangesOnly ps s t) (htu : ChangesOnly qs t u) :
    ChangesOnly (ps ++ qs) s u := by
  intro p hp
  obtain ⟨hps, hqs⟩ : p ∉ ps ∧ p ∉ qs := by simpa using hp
  exact Part.same_trans (hst p hps) (htu p hqs)

/-! ### The flag as a byte -/

theorem flagByte_eq_one_iff (b : Bool) : flagByte b = 1 ↔ b = true := by
  cases b <;> decide

theorem flagByte_eq_zero_or_one (b : Bool) : flagByte b = 0 ∨ flagByte b = 1 := by
  cases b <;> decide

/-! ### One draw -/

/-- The state after a completed draw: the framebuffer, then VF (R93). -/
def afterDraw (s : State) (x y : Reg) (n : Fin 16) : State :=
  writeReg (setFb s (drawnCanvas s x y n).1) 15 (flagByte (drawnCanvas s x y n).2)

theorem exec_drw_afterDraw (h : n = 0 ∨ s.idx.toNat + n.val ≤ 0x1000) (x y : Reg) :
    exec (.drw x y n) s = .next (afterDraw s x y n) :=
  exec_drw_next h x y

theorem exec_drw_outOfBounds (hn : n ≠ 0) (h : 0x1000 < s.idx.toNat + n.val) (x y : Reg) :
    exec (.drw x y n) s = .fault (.outOfBounds (max s.idx.toNat 0x1000)) := by
  have hload : loadBlock s (idxBase s) n.val = .error (.outOfBounds (max s.idx.toNat 0x1000)) :=
    loadBlock_error s _ _ (Fin.val_ne_zero_iff.2 hn) h
  simp only [exec, execDrw, hload, raise]

/-- VF is 1 exactly after a collision. -/
theorem afterDraw_flag_iff (s : State) (x y : Reg) (n : Fin 16) :
    readReg (afterDraw s x y n) 15 = 1 ↔ (drawnCanvas s x y n).2 = true := by
  rw [afterDraw, readReg_writeReg_self, flagByte_eq_one_iff]

theorem afterDraw_flag_zero_or_one (s : State) (x y : Reg) (n : Fin 16) :
    readReg (afterDraw s x y n) 15 = 0 ∨ readReg (afterDraw s x y n) 15 = 1 := by
  rw [afterDraw, readReg_writeReg_self]
  exact flagByte_eq_zero_or_one _

theorem otherRegsSame_afterDraw (s : State) (x y : Reg) (n : Fin 16) : OtherRegsSame [15] s (afterDraw s x y n) :=
  otherRegsSame_writeReg (setFb s _) 15 _

theorem changesOnly_afterDraw (s : State) (x y : Reg) (n : Fin 16) : ChangesOnly [.fb, .regs] s (afterDraw s x y n) :=
  (changesOnly_setFb s _).trans (changesOnly_setRegs _ _)

/-! ### A second draw -/

theorem bytesAt_congr (hmem : t.mem = s.mem) (hparams : t.params = s.params) (a k : Nat) :
    bytesAt t a k = bytesAt s a k :=
  List.map_congr_left fun i _ => byteAt_congr hmem hparams (a + i)

/-- A draw takes its pixels from memory, I and the two coordinates alone, whatever else the state holds. -/
theorem drawnCanvas_draws_congr (hmem : t.mem = s.mem) (hparams : t.params = s.params) (hidx : t.idx = s.idx)
    (hx : readReg t x = readReg s x) (hy : readReg t y = readReg s y) (n : Fin 16) :
    Draws (t.fb, false) (drawnCanvas t x y n)
      (SpriteCovers (bytesAt s s.idx.toNat n.val) (readReg s x).toNat (readReg s y).toNat) := by
  rw [← bytesAt_congr hmem hparams, ← hidx, ← hx, ← hy]
  exact drawnCanvas_draws t x y n

/-- Toggling the same pixels twice gives every pixel back, and the second pass collides exactly on a pixel that the first
one set. -/
theorem Draws.twice {fb : Framebuffer} {k k' : Canvas} {S : Fin 32 → Fin 64 → Prop} (h : Draws (fb, false) k S)
    (h' : Draws (k.1, false) k' S) :
    (∀ y x, k'.1.pixel y x = fb.pixel y x) ∧
      (k'.2 = true ↔ ∃ y x, k.1.pixel y x = true ∧ fb.pixel y x = false) := by
  obtain ⟨htoggled, -⟩ := h
  obtain ⟨htoggled', hflag'⟩ := h'
  constructor
  · intro y x
    by_cases hS : S y x
    · rw [Bool.eq_not_of_ne ((htoggled' y x).2 hS), Bool.eq_not_of_ne ((htoggled y x).2 hS), Bool.not_not]
    · have hkept : k.1.pixel y x = fb.pixel y x := not_not.1 (mt (htoggled y x).1 hS)
      have hkept' : k'.1.pixel y x = k.1.pixel y x := not_not.1 (mt (htoggled' y x).1 hS)
      exact hkept'.trans hkept
  · simp only [hflag', Bool.false_eq_true, false_or, ← htoggled]
    refine exists₂_congr fun y x => and_comm.trans (and_congr_right fun hset => ?_)
    rw [hset, ne_comm, ne_eq, Bool.not_eq_true]

end Sys2Proof.Machine

open Sys2Proof.Machine

/-- Settles O27: the canvas of a draw toggles the covered pixels and reports their collision, and the two writes after it
are the framebuffer and VF. -/
theorem drawTogglesCoveredPixels : Obligations.DrawTogglesCoveredPixels := by
  intro s x y n hn
  obtain ⟨htoggled, hflag⟩ := drawnCanvas_draws s x y n
  refine ⟨_, exec_drw_afterDraw hn x y, htoggled, ?collision, afterDraw_flag_zero_or_one s x y n,
    otherRegsSame_afterDraw s x y n, changesOnly_afterDraw s x y n⟩
  case collision =>
    simp only [afterDraw_flag_iff, hflag, Bool.false_eq_true, false_or, and_comm]

/-- Settles O28, from the first address at which the load of the rows fails. -/
theorem drawPastMemoryFaults : Obligations.DrawPastMemoryFaults :=
  fun _ x y _ hn h => exec_drw_outOfBounds hn h x y

/-- Settles O29: the second draw reads the same rows and coordinates, so it toggles the same pixels again. -/
theorem drawTwiceRestoresPixels : Obligations.DrawTwiceRestoresPixels := by
  intro s x y n hn
  refine ⟨_, exec_drw_afterDraw hn x y, fun t' hfb hmem hparams hidx hx hy => ?_⟩
  have hagain := drawnCanvas_draws_congr (s := s) hmem hparams hidx hx hy n
  rw [hfb] at hagain
  obtain ⟨hrestored, hflag⟩ := (drawnCanvas_draws s x y n).twice hagain
  refine ⟨_, exec_drw_afterDraw (by rwa [hidx]) x y, hrestored, ?_⟩
  exact (afterDraw_flag_iff t' x y n).trans hflag

end

/-! ## BCD and block transfer (48_bcd_block_transfer.md)

Each of the three is one accepted block at I: `Fx33` and `Fx55` write it to memory, `Fx65` reads it into the registers. What
a block access then reads or leaves alone is said once, and the two transfers end with the same move of I (R100). -/

section
namespace Sys2Proof.Machine

variable {s t : State} {x r : Reg}

/-! ### Frames -/

theorem changesOnly_setMem (s : State) (m : Memory) : ChangesOnly [.mem] s { s with mem := m } := by
  intro p hp
  cases p with
  | mem => simp at hp
  | regs => intro _; rfl
  | fb => intro _ _; rfl
  | _ => rfl

/-- The end of a block transfer is at most a write of I (R100). -/
theorem endBlock_eq_setIdx (x : Reg) (s : State) : endBlock x s = setIdx s (endBlock x s).idx := by
  unfold endBlock
  cases s.params.ldstIndex <;> rfl

theorem changesOnly_endBlock (x : Reg) (s : State) : ChangesOnly [.idx] s (endBlock x s) := by
  rw [endBlock_eq_setIdx]
  exact changesOnly_setIdx s _

/-! ### Memory after a block write -/

theorem memRead_inside {a : Nat} (ha : a ≤ 0xFFF) : memRead s a = .ok (byteAt s a) := by
  rw [memRead_eq, if_pos (by omega)]

theorem memRead_putBytes_inside {a i : Nat} {bs : List Byte} (hi : i < bs.length) (hin : a + bs.length ≤ 0x1000) :
    memRead (putBytes s a bs) (a + i) = .ok bs[i] := by
  rw [memRead_inside (by omega), byteAt_putBytes_inside s a i bs hi]

theorem memRead_putBytes_outside {a c : Nat} {bs : List Byte} (hc : c < a ∨ a + bs.length ≤ c) :
    memRead (putBytes s a bs) c = memRead s c :=
  memRead_congr_at (byteAt_putBytes_outside s a c bs hc)

theorem memRead_endBlock (x : Reg) (s : State) (a : Nat) : memRead (endBlock x s) a = memRead s a :=
  memRead_congr_at (byteAt_endBlock x s a)

/-! ### I after a block transfer -/

theorem endBlock_idx_advance (s : State) (x : Reg) (h : s.params.ldstIndex = .advance) :
    (endBlock x s).idx.toNat = (s.idx.toNat + x.val + 1) % 65536 := by
  have hx : x.val < 16 := x.isLt
  simp only [endBlock_idx, h, BitVec.toNat_add, BitVec.toNat_ofNat]
  omega

/-! ### The decimal digits -/

theorem bcdDigits_length (v : Byte) : (bcdDigits v).length = 3 := rfl

/-- A byte is its three digits: the hundreds fit a byte unreduced, the other two are remainders by ten. -/
theorem bcdDigits_value (v : Byte) : ∃ h d o, bcdDigits v = [h, d, o] ∧
    v.toNat = 100 * h.toNat + 10 * d.toNat + o.toNat ∧ d.toNat ≤ 9 ∧ o.toNat ≤ 9 := by
  have hv : v.toNat < 256 := v.isLt
  refine ⟨_, _, _, rfl, ?_⟩
  simp only [BitVec.toNat_ofNat]
  omega

/-! ### The instructions -/

theorem exec_ldB_next (hin : s.idx.toNat + 2 ≤ 0xFFF) (hfont : s.params.fontWrite = .fault → 0x04F < s.idx.toNat) :
    exec (.ldB x) s = .next (putBytes s s.idx.toNat (bcdDigits (readReg s x))) := by
  have hstore := storeBlock_ok s s.idx.toNat (bcdDigits (readReg s x)) (.inr (by rw [bcdDigits_length]; omega))
    (fun hp => .inr (hfont hp))
  simp only [exec, execLdB, idxBase, hstore, finish]

theorem exec_ldMemVx_stored (hin : s.idx.toNat + x.val ≤ 0xFFF)
    (hfont : s.params.fontWrite = .fault → 0x04F < s.idx.toNat) :
    exec (.ldMemVx x) s = .next (endBlock x (putBytes s s.idx.toNat (regsUpTo s x))) := by
  have hstore := storeBlock_ok s s.idx.toNat (regsUpTo s x) (.inr (by rw [regsUpTo_length]; omega))
    (fun hp => .inr (hfont hp))
  simp only [exec, execLdMemVx, idxBase, hstore]

/-- The state after the loads of `Fx65`, before I moves (R99). -/
def withLoadedRegs (s : State) (x : Reg) : State :=
  { s with regs := writeRegsFrom 0 (bytesAt s s.idx.toNat (x.val + 1)) s.regs }

theorem exec_ldVxMem_next (hin : s.idx.toNat + x.val ≤ 0xFFF) :
    exec (.ldVxMem x) s = .next (endBlock x (withLoadedRegs s x)) := by
  have hload := loadBlock_ok s s.idx.toNat (x.val + 1) (.inr (by omega))
  simp only [exec, execLdVxMem, idxBase, hload, withLoadedRegs]

theorem readReg_withLoadedRegs (hr : r ≤ x) : readReg (withLoadedRegs s x) r = byteAt s (s.idx.toNat + r.val) := by
  have hlen : r.val < (bytesAt s s.idx.toNat (x.val + 1)).length := by simp; omega
  simp only [readReg, withLoadedRegs, Fin.getElem_fin, writeRegsFrom_getElem, Nat.zero_le, if_true, Nat.sub_zero,
    List.getD_eq_getElem _ _ hlen, bytesAt_getElem]

theorem readReg_withLoadedRegs_above (hr : x < r) : readReg (withLoadedRegs s x) r = readReg s r :=
  readReg_writeRegsFrom_above (by simp; omega)

/-! ### Block faults -/

theorem exec_ldB_fault {f : Fault} (h : storeBlock s s.idx.toNat (bcdDigits (readReg s x)) = .error f) :
    exec (.ldB x) s = .fault f := by
  simp only [exec, execLdB, idxBase, h, finish, raise]

theorem exec_ldMemVx_fault {f : Fault} (h : storeBlock s s.idx.toNat (regsUpTo s x) = .error f) :
    exec (.ldMemVx x) s = .fault f := by
  simp only [exec, execLdMemVx, idxBase, h, raise]

theorem exec_ldVxMem_fault {f : Fault} (h : loadBlock s s.idx.toNat (x.val + 1) = .error f) :
    exec (.ldVxMem x) s = .fault f := by
  simp only [exec, execLdVxMem, idxBase, h, raise]

end Sys2Proof.Machine

open Sys2Proof.Machine

/-- Settles O31: the block stored at I is the three digits of Vx. -/
theorem bcdWritesDigits : Obligations.BcdWritesDigits := by
  intro s x hin hfont
  obtain ⟨h, d, o, hdigits, hvalue, hd, ho⟩ := bcdDigits_value (readReg s x)
  have hexec := exec_ldB_next (x := x) hin hfont
  rw [hdigits] at hexec
  have hlen : s.idx.toNat + [h, d, o].length ≤ 0x1000 := by simp; omega
  refine ⟨_, h, d, o, hexec, memRead_putBytes_inside (i := 0) (by simp) hlen,
    memRead_putBytes_inside (i := 1) (by simp) hlen, memRead_putBytes_inside (i := 2) (by simp) hlen, hvalue, hd, ho,
    fun a ha => memRead_putBytes_outside (by simp; omega), changesOnly_setMem s _⟩

/-- Settles O32: the block stored at I is V0 to Vx, and the end of the transfer moves I only. -/
theorem registerStoreCopiesOut : Obligations.RegisterStoreCopiesOut := by
  intro s x hin hfont
  have hexec := exec_ldMemVx_stored hin hfont
  refine ⟨_, hexec, fun r hr => ?stored, fun a ha => ?others, endBlock_idx_keep (s := putBytes s _ _) x,
    endBlock_idx_advance (putBytes s _ _) x, (changesOnly_setMem s _).trans (changesOnly_endBlock x _)⟩
  case stored =>
    have hle : r.val ≤ x.val := hr
    rw [memRead_inside (by omega), byteAt_ldMemVx hexec hr]
  case others => rw [memRead_endBlock, memRead_putBytes_outside (by rw [regsUpTo_length]; omega)]

/-- Settles O33: the block loaded from I goes to V0 to Vx, and the end of the transfer moves I only. -/
theorem registerLoadCopiesIn : Obligations.RegisterLoadCopiesIn := by
  intro s x hin
  refine ⟨_, exec_ldVxMem_next hin, fun r hr => ?loaded, fun r hr => ?others,
    endBlock_idx_keep (s := withLoadedRegs s x) x, endBlock_idx_advance (withLoadedRegs s x) x,
    (changesOnly_setRegs s _).trans (changesOnly_endBlock x _)⟩
  case loaded =>
    have hle : r.val ≤ x.val := hr
    rw [memRead_inside (by omega), readReg_endBlock, readReg_withLoadedRegs hr]
  case others => rw [readReg_endBlock, readReg_withLoadedRegs_above hr]

/-- Settles O34: a protected block fails at its own base; a block that passes 0xFFF begins above the font, so it fails at
its first address outside memory. -/
theorem blockFaultsAtFirstAddress : Obligations.BlockFaultsAtFirstAddress := by
  intro s x
  obtain ⟨hbcdFont, hbcdEnd⟩ := storeBlock_error s s.idx.toNat (bcdDigits (readReg s x)) (by simp [bcdDigits])
  obtain ⟨hstoreFont, hstoreEnd⟩ := storeBlock_error s s.idx.toNat (regsUpTo s x) (regsUpTo_ne_nil s x)
  rw [bcdDigits_length] at hbcdEnd
  rw [regsUpTo_length] at hstoreEnd
  refine ⟨fun hp hfont => ⟨?_, ?_⟩, fun hend => ?_, fun hend => ⟨?_, ?_⟩⟩
  · exact exec_ldB_fault (hbcdFont hp (by omega))
  · exact exec_ldMemVx_fault (hstoreFont hp (by omega))
  · exact exec_ldB_fault (hbcdEnd (by omega) (fun _ => by omega))
  · exact exec_ldMemVx_fault (hstoreEnd (by omega) (fun _ => by omega))
  · exact exec_ldVxMem_fault (loadBlock_error s _ _ (by omega) (by omega))

/-- Settles O35: the load reads at I + r the byte that the store left there. -/
theorem storeThenLoadRoundTrips : Obligations.StoreThenLoadRoundTrips := by
  intro s t u v x hstore hmem hparams hidx hload r hr
  obtain ⟨hin, -⟩ := ldMemVx_bounds hstore
  rw [exec_ldVxMem_next (by rw [hidx]; omega)] at hload
  cases hload
  calc readReg (endBlock x (withLoadedRegs u x)) r
      = byteAt u (u.idx.toNat + r.val) := by rw [readReg_endBlock, readReg_withLoadedRegs hr]
    _ = byteAt t (s.idx.toNat + r.val) := by rw [hidx, byteAt_congr hmem hparams]
    _ = readReg s r := byteAt_ldMemVx hstore hr

end

/-! ## Timers and keys (49_timer_key.md)

A timer instruction is one write; a key skip is the skip of R68 once Vx is a key code; and `Fx0A` is one write of Vx or of
PC, by whether a key is pressed. -/

section
namespace Sys2Proof.Machine

variable {s : State} {x k : Reg}

/-! ### Frames -/

theorem changesOnly_dt_st (s : State) (d e : Byte) : ChangesOnly [.dt, .st] s { s with dt := d, st := e } := by
  intro p hp
  cases p with
  | dt | st => simp at hp
  | regs | mem => intro _; rfl
  | fb => intro _ _; rfl
  | _ => rfl

theorem changesOnly_setDt (s : State) (v : Byte) : ChangesOnly [.dt] s (setDt s v) :=
  (changesOnly_dt_st s v s.st).erase (p := .st) rfl

theorem changesOnly_setSt (s : State) (v : Byte) : ChangesOnly [.st] s (setSt s v) :=
  (changesOnly_dt_st s s.dt v).erase (p := .dt) rfl

/-! ### The instructions -/

theorem exec_ldVxDt (x : Reg) (s : State) : exec (.ldVxDt x) s = .next (writeReg s x s.dt) := rfl

theorem exec_ldDtVx (x : Reg) (s : State) : exec (.ldDtVx x) s = .next (setDt s (readReg s x)) := rfl

theorem exec_ldStVx (x : Reg) (s : State) : exec (.ldStVx x) s = .next (setSt s (readReg s x)) := rfl

/-- Vx as the code of key k (R104). -/
theorem hexDigitOperand_key (h : (readReg s x).toNat = k.val) : hexDigitOperand s x = .ok k := by
  have hlt : (readReg s x).toNat < 16 := h ▸ k.isLt
  rw [hexDigitOperand_ok s x hlt]
  exact congrArg _ (Fin.ext h)

theorem exec_skp_key (h : (readReg s x).toNat = k.val) : exec (.skp x) s = .next (skipIf s.keys[k] s) := by
  simp only [exec, execSkp, hexDigitOperand_key h]

theorem exec_sknp_key (h : (readReg s x).toNat = k.val) : exec (.sknp x) s = .next (skipIf (!s.keys[k]) s) := by
  simp only [exec, execSknp, hexDigitOperand_key h]

theorem exec_skp_outOfBounds (h : 0xF < (readReg s x).toNat) :
    exec (.skp x) s = .fault (.outOfBounds (readReg s x).toNat) := by
  simp only [exec, execSkp, hexDigitOperand_error s x h, raise]

theorem exec_sknp_outOfBounds (h : 0xF < (readReg s x).toNat) :
    exec (.sknp x) s = .fault (.outOfBounds (readReg s x).toNat) := by
  simp only [exec, execSknp, hexDigitOperand_error s x h, raise]

theorem skipIf_not_pc (b : Bool) (s : State) : (skipIf (!b) s).pc = if b = true then s.pc else s.pc + 2 := by
  cases b <;> rfl

theorem exec_ldVxK_pressed (x : Reg) (hk : s.keys[k] = true) (hmin : ∀ j < k, s.keys[j] = false) :
    exec (.ldVxK x) s = .next (writeReg s x (BitVec.ofNat 8 k.val)) := by
  simp only [exec, execLdVxK, (lowestPressed_eq_some s.keys k).2 ⟨hk, hmin⟩]

theorem exec_ldVxK_waiting (x : Reg) (hnone : ∀ k : Reg, s.keys[k] = false) :
    exec (.ldVxK x) s = .next (setPc s (s.pc - 2)) := by
  simp only [exec, execLdVxK, (lowestPressed_eq_none s.keys).2 hnone]

theorem keyCode_toNat (k : Reg) : (BitVec.ofNat 8 k.val).toNat = k.val :=
  (BitVec.toNat_ofNat _ _).trans (Nat.mod_eq_of_lt (by omega))

end Sys2Proof.Machine

open Sys2Proof.Machine

/-- Settles O37: each of the three is one write, of Vx, DT or ST. -/
theorem timerInstructions : Obligations.TimerInstructions :=
  fun s x => ⟨_, _, _, exec_ldVxDt x s, exec_ldDtVx x s, exec_ldStVx x s, readReg_writeReg_self s x _,
    otherRegsSame_writeReg s x _, changesOnly_setRegs s _, rfl, changesOnly_setDt s _, rfl, changesOnly_setSt s _⟩

/-- Settles O38, from the two cases of a key code: the two skips are one skip under opposite conditions. -/
theorem keySkips : Obligations.KeySkips :=
  fun s _ => ⟨fun _ hk => ⟨_, _, exec_skp_key hk, exec_sknp_key hk, skipIf_pc s _, skipIf_not_pc _ s,
    changesOnly_skipIf _ s, changesOnly_skipIf _ s⟩, fun h => ⟨exec_skp_outOfBounds h, exec_sknp_outOfBounds h⟩⟩

/-- Settles O39, from the two answers of the query for the lowest pressed key. -/
theorem waitForKeyTakesLowest : Obligations.WaitForKeyTakesLowest := by
  intro s x
  refine ⟨fun k hk hmin => ⟨_, exec_ldVxK_pressed x hk hmin, ?_, writeReg_frame s x _⟩,
    fun hnone => ⟨_, exec_ldVxK_waiting x hnone, rfl, changesOnly_setPc s _⟩⟩
  rw [readReg_writeReg_self, keyCode_toNat]

end

/-! ## The errors of a cycle (60_exceptions.md)

`step_cases` and `exec_fault` say where a cycle's error comes from: the fetch and the instructions never raise
UnimplementedOpcode or ProgramTooLarge, so the first is dispatch's alone and the second no cycle's. -/

section
namespace Sys2Proof.Machine

variable {s : State} {f : Fault} {v w : Word}

/-! ### What an instruction cannot answer -/

theorem exec_ne_unimplementedOpcode (i : Instr) (s : State) (v : Word) : exec i s ≠ .fault (.unimplementedOpcode v) :=
  fun h => nomatch exec_fault h

theorem exec_ne_programTooLarge (i : Instr) (s : State) (n : Nat) : exec i s ≠ .fault (.programTooLarge n) :=
  fun h => nomatch exec_fault h

/-- Every arm of dispatch has a meaning: one that checks nothing answers its next state, and one that checks an operand, an
address or the stack answers a next state or an error. -/
theorem exec_ne_refused (i : Instr) (s : State) (r : Refusal) : exec i s ≠ .refused r := by
  intro h
  cases i
  case ret | call | skp | sknp | ldF | drw | ldB | ldMemVx | ldVxMem | ldVxK =>
    simp only [exec, execRet, execCall, execSkp, execSknp, execLdF, execDrw, execLdB, finish, execLdMemVx, execLdVxMem,
      execLdVxK] at h
    split at h <;> cases h
  all_goals cases h

/-! ### Where a step's error comes from -/

theorem step_of_unrecognised (hw : fetch s = .ok w) (hr : recognise s.params w = none) :
    step s = .fault (.unimplementedOpcode w) := by
  simp only [step, hw, hr, raise]

/-- Only dispatch raises UnimplementedOpcode, on the word it does not recognise (R112). -/
theorem unrecognised_of_step (h : step s = .fault (.unimplementedOpcode v)) :
    fetch s = .ok v ∧ recognise s.params v = none := by
  obtain ⟨-, he⟩ | ⟨w, -, hw, ⟨hr, he⟩ | ⟨i, -, he⟩⟩ := step_cases s
  · rw [he] at h; cases h
  · rw [he] at h; cases h; exact ⟨hw, hr⟩
  · exact absurd (he.symm.trans h) (exec_ne_unimplementedOpcode i _ v)

/-! ### The record of a failed cycle -/

theorem hostOp_cycle_of_fault (h : step s = .fault f) : hostOp .cycle s = (s, .err (cycleRecord s f)) := by
  simp only [hostOp, cycle, h]

theorem fetchedWord_inside (hpc : s.pc.toNat < 0xFFF) :
    fetchedWord s = some (Word.ofBytes (byteAt s s.pc.toNat) (byteAt s (s.pc.toNat + 1))) := by
  simp only [fetchedWord, fetch_ok s hpc]

theorem fetchedWord_outside (hpc : 0xFFF ≤ s.pc.toNat) : fetchedWord s = none := by
  simp only [fetchedWord, fetch_error s hpc]

end Sys2Proof.Machine

open Sys2Proof Sys2Proof.Machine

/-- Settles O8: dispatch raises it on the fetched word, and nothing else raises it. -/
theorem unrecognisedWordFaults : Obligations.UnrecognisedWordFaults := by
  intro s v hpc
  have hfetch := fetch_ok s hpc
  constructor
  · intro h
    obtain ⟨hv, hr⟩ := unrecognised_of_step h
    exact ⟨Except.ok.inj (hfetch.symm.trans hv), hr⟩
  · rintro ⟨rfl, hr⟩
    exact step_of_unrecognised hfetch hr

/-- Settles O9: the fetch and dispatch raise errors of their own, and no instruction refuses or raises ProgramTooLarge. -/
theorem noCycleRefuses : Obligations.NoCycleRefuses := by
  intro s
  obtain ⟨-, he⟩ | ⟨w, -, -, ⟨-, he⟩ | ⟨i, -, he⟩⟩ := step_cases s
  · simp [he]
  · simp [he]
  · rw [he]
    exact ⟨exec_ne_refused i _, exec_ne_programTooLarge i _⟩

/-- Settles O54: the causes of the two errors, and the call on a full and the return on an empty stack. -/
theorem stackErrorCauses : Obligations.StackErrorCauses := by
  intro i s a
  constructor
  · constructor
    · intro h
      cases exec_fault h with
      | full nnn hi hsp => exact ⟨⟨nnn, hi⟩, hsp, rfl⟩
    · rintro ⟨⟨nnn, rfl⟩, hsp, rfl⟩
      exact exec_call_full nnn hsp
  · constructor
    · intro h
      cases exec_fault h with
      | empty hi hsp => exact ⟨hi, hsp, rfl⟩
    · rintro ⟨rfl, hsp, rfl⟩
      exact exec_ret_empty hsp

/-- Settles O60: a failed cycle gives back the state it began with, and its record is of that state. -/
theorem failedCycleKeepsState : Obligations.FailedCycleKeepsState :=
  fun _ _ h => ⟨_, hostOp_cycle_of_fault h, rfl, rfl, rfl, fetchedWord_inside, fetchedWord_outside⟩

end

/-! ## The host's operations (60_exceptions.md, 70_reset_and_hazards.md)

A program load is a block write with no font check; the queries read the keypad and the framebuffer; the key and timer
operations are one write each; and a snapshot put back writes what it was read from. -/

section
namespace Sys2Proof.Machine

variable {s u : State} {bs : List Byte} {r : Snapshot}

/-! ### Program load -/

theorem hostOp_loadProgram_fits (h : bs.length ≤ 0xE00) :
    hostOp (.loadProgram bs) s = (putBytes s 0x200 bs, .ok) := by
  simp only [hostOp, loadProgram, if_neg (Nat.not_lt.2 h)]

theorem hostOp_loadProgram_tooLarge (h : 0xE00 < bs.length) :
    hostOp (.loadProgram bs) s = (s, .err (loadRecord (.programTooLarge bs.length))) := by
  simp only [hostOp, loadProgram, if_pos h]

/-! ### Keys and timers -/

theorem changesOnly_setKeys (s : State) (v : Vector Bool 16) : ChangesOnly [.keys] s { s with keys := v } := by
  intro p hp
  cases p with
  | keys => simp at hp
  | regs | mem => intro _; rfl
  | fb => intro _ _; rfl
  | _ => rfl

theorem hostOp_key (k : Nat) (b : Bool) (s : State) :
    hostOp (if b then .keySet k else .keyClear k) s = putKey k b s := by
  cases b <;> rfl

theorem putKey_inside {k : Nat} (h : k < 16) (b : Bool) (s : State) :
    putKey k b s = ({ s with keys := s.keys.set k b }, .ok) :=
  dif_pos h

theorem putKey_rejected {k : Nat} (h : 16 ≤ k) (b : Bool) (s : State) : putKey k b s = (s, .rejected) :=
  dif_neg (Nat.not_lt.2 h)

/-- One tick of a timer saturates at zero (R133). -/
theorem tick_toNat (v : Byte) : (if v = 0 then 0 else v - 1).toNat = v.toNat - 1 := by
  split
  case isTrue h => rw [h]; rfl
  case isFalse h => bv_omega

/-! ### Snapshots -/

theorem pixelsOf_length (fb : Framebuffer) : (pixelsOf fb).length = 2048 :=
  (rows_flat_length fb.toList).trans (by rw [Vector.length_toList])

theorem pixelsOf_getElem? (fb : Framebuffer) (y : Fin 32) (x : Fin 64) :
    (pixelsOf fb)[y.val * 64 + x.val]? = some (fb.pixel y x) :=
  rows_flat_getElem? fb.toList y x x.isLt (by simp)

/-- The numbers of a vector of words fit its size and their width. -/
theorem fits_vector {n w : Nat} (v : Vector (BitVec w) n) : fits n w (v.toList.map BitVec.toNat) = true := by
  simpa using fits_numbers v.toList

theorem fits_word {w : Nat} (v : BitVec w) : fits 1 w [v.toNat] = true :=
  fits_numbers [v]

theorem fits_bytesAt (s : State) (a n : Nat) : fits n 8 ((bytesAt s a n).map BitVec.toNat) = true := by
  simpa using fits_numbers (bytesAt s a n)

theorem snapshotOf_valid (s : State) : (snapshotOf s).valid = true := by
  have hsp : s.sp.val ≤ 16 := Nat.le_of_lt_succ s.sp.isLt
  simp only [Snapshot.valid, snapshotOf, fits_vector, fits_word, fits_bytesAt, pixelsOf_length, hsp, decide_true,
    Bool.and_true]

theorem Snapshot.not_valid_of_sp (h : 16 < r.sp) : r.valid = false := by
  have hsp : ¬ r.sp ≤ 16 := Nat.not_le.2 h
  simp only [Snapshot.valid, hsp, decide_false, Bool.and_false, Bool.false_and]

theorem Snapshot.mem_length_of_valid (h : r.valid = true) : r.mem.length = 4096 := by
  simp only [Snapshot.valid, Bool.and_eq_true] at h
  obtain ⟨-, hmem⟩ := h
  simp only [fits, Bool.and_eq_true, decide_eq_true_eq] at hmem
  obtain ⟨hlength, -⟩ := hmem
  exact hlength

theorem hostOp_restore_valid (h : r.valid = true) (u : State) : hostOp (.restore r) u = (putSnapshot u r, .ok) := by
  simp only [hostOp, restore, h, if_true]

theorem hostOp_restore_rejected (h : r.valid = false) (u : State) : hostOp (.restore r) u = (u, .rejected) := by
  simp only [hostOp, restore, h, Bool.false_eq_true, if_false]

/-- What a snapshot was read from, put into a machine of the same parameters, field by field. -/
theorem putSnapshot_snapshotOf (hs : MemoryCanonical s) (hp : u.params = s.params) :
    putSnapshot u (snapshotOf s) = { s with keys := u.keys, draws := u.draws } := by
  have hsp : Fin.ofNat 17 s.sp.val = s.sp := Fin.ofNat_val_eq_self s.sp
  simp only [putSnapshot, snapshotOf, vectorOf_numbers, fb_of_pixels, BitVec.ofNat_toNat, BitVec.setWidth_eq, hsp, hp,
    memory_of_numbers s hs]

end Sys2Proof.Machine

open Sys2Proof.Machine

/-- Settles O55: an image that fits ends inside memory, so each of its bytes reads back and no other changes. -/
theorem loadProgramWritesImage : Obligations.LoadProgramWritesImage :=
  fun s _ => ⟨fun hlen => ⟨_, hostOp_loadProgram_fits hlen, fun _ hi => memRead_putBytes_inside hi (by omega),
    fun _ ha => memRead_putBytes_outside ha, changesOnly_setMem s _⟩,
    fun hlen => ⟨_, hostOp_loadProgram_tooLarge hlen, rfl, rfl⟩⟩

/-- Settles O56, from what the search for the lowest key answers. -/
theorem keyQueryReturnsLowest : Obligations.KeyQueryReturnsLowest :=
  fun s => ⟨_, rfl, lowestPressed_eq_some s.keys, lowestPressed_eq_none s.keys⟩

/-- Settles O57: pixel x of row y stands behind y whole rows of 64. -/
theorem framebufferReadIsRowMajor : Obligations.FramebufferReadIsRowMajor :=
  fun s => ⟨_, rfl, pixelsOf_length s.fb, pixelsOf_getElem? s.fb⟩

/-- Settles O58: both key operations are one write of the keypad with the operation's value, and a tick is one write of the
two timers. -/
theorem keyAndTimerOperations : Obligations.KeyAndTimerOperations := by
  intro s k b op
  have hop : hostOp op s = putKey k b s := hostOp_key k b s
  rw [hop]
  refine ⟨fun hk => ?_, fun hk => putKey_rejected hk b s,
    ⟨_, rfl, tick_toNat s.dt, tick_toNat s.st, changesOnly_dt_st s _ _⟩⟩
  exact ⟨_, putKey_inside hk b s, Vector.getElem_set_self hk, fun j hj => Vector.getElem_set_ne hk j.isLt (Ne.symm hj),
    changesOnly_setKeys s _⟩

/-- Settles O59: a snapshot is a valid record, and each field reads back from its numbers. -/
theorem restoreOfSnapshotRoundTrips : Obligations.RestoreOfSnapshotRoundTrips := by
  intro s u hs hp
  refine ⟨?_, fun r hsp => hostOp_restore_rejected (Snapshot.not_valid_of_sp hsp) u⟩
  rw [hostOp_restore_valid (snapshotOf_valid s), putSnapshot_snapshotOf hs hp]

end

/-! ## Construction, repeated cycles, and memory under the host (70_reset_and_hazards.md)

A constructed machine lists nothing, so its memory reads as the font and zeros and is canonical; the host then writes memory
by whole blocks inside the address space, or by a cycle. A cycle that writes back the PC it began with changes nothing. -/

section
namespace Sys2Proof.Machine

variable {s : State}

/-! ### The state at construction -/

theorem byteAt_construct (p : Config.Params) (a : Nat) :
    byteAt (State.construct p) a = Memory.unlisted p.font a := rfl

theorem unlisted_font (font : Config.Font) (k : Fin 80) : Memory.unlisted font k.val = font[k] :=
  dif_pos k.isLt

theorem unlisted_zero {font : Config.Font} {a : Nat} (h : 80 ≤ a) : Memory.unlisted font a = 0 :=
  dif_neg (Nat.not_lt.2 h)

theorem memoryCanonical_construct (p : Config.Params) : MemoryCanonical (State.construct p) :=
  Memory.nil_wf p.font

theorem stack_construct (p : Config.Params) (k : Fin 16) : (State.construct p).stack[k] = 0 :=
  Vector.getElem_replicate k.isLt

theorem pcBounded_construct (p : Config.Params) : PcBounded (State.construct p) := by
  have hpc : (0x200 : Word).toNat ≤ 0x10FE := by decide
  refine ⟨hpc, fun k => ?_⟩
  rw [stack_construct]
  decide

theorem fontIntact_construct (p : Config.Params) : FontIntact (State.construct p) :=
  fun k => unlisted_font p.font k

/-! ### Memory under the host's operations -/

theorem memoryCanonical_loadProgram (bs : List Byte) (hs : MemoryCanonical s) :
    MemoryCanonical (hostOp (.loadProgram bs) s).1 := by
  obtain hlen | hlen := Nat.lt_or_ge 0xE00 bs.length
  · rwa [hostOp_loadProgram_tooLarge hlen]
  · rw [hostOp_loadProgram_fits hlen]
    exact Memory.setBytes_wf _ _ bs 0x200 (by omega) hs

theorem memoryCanonical_cycle (hs : MemoryCanonical s) : MemoryCanonical (hostOp .cycle s).1 := by
  cases he : step s with
  | next t => simpa only [hostOp, cycle, he] using stepKeepsMemoryCanonical s t hs he
  | fault f => rwa [hostOp_cycle_of_fault he]
  | refused q => simpa only [hostOp, cycle, he] using hs

theorem memoryCanonical_putKey (k : Nat) (b : Bool) (hs : MemoryCanonical s) : MemoryCanonical (putKey k b s).1 := by
  obtain hk | hk := Nat.lt_or_ge k 16
  · rwa [putKey_inside hk]
  · rwa [putKey_rejected hk]

/-- A valid record holds 4096 bytes, so all are written inside the address space. -/
theorem memoryCanonical_restore (r : Snapshot) (hs : MemoryCanonical s) :
    MemoryCanonical (hostOp (.restore r) s).1 := by
  cases hr : r.valid with
  | false => rwa [hostOp_restore_rejected hr]
  | true =>
    have hlen : 0 + (r.mem.map (BitVec.ofNat 8)).length ≤ 4096 := by
      rw [List.length_map, Snapshot.mem_length_of_valid hr]
    rw [hostOp_restore_valid hr]
    exact Memory.setBytes_wf _ _ _ 0 hlen (Memory.nil_wf _)

/-! ### A cycle that repeats its instruction -/

/-- Writing back the PC that the cycle advanced. -/
theorem setPc_advance_self (s : State) : setPc (advance s) s.pc = s := rfl

theorem recognise_encode {p : Config.Params} {i : Instr} (h : i.isExtra = false) : recognise p (encode i) = some i := by
  rw [recognise_of_decodeWord (decodeWord_encode i), if_neg (by simp [h])]

/-- A halted machine fetches a jump to its own PC (R147). -/
theorem fetch_of_haltedAt (h : haltedAt s = true) :
    ∃ nnn, fetch s = .ok (encode (.jp nnn)) ∧ addrOperand nnn = s.pc := by
  unfold haltedAt fetchedWord at h
  cases hw : fetch s with
  | error f => simp [hw] at h
  | ok w =>
    simp only [hw] at h
    split at h
    · rename_i nnn hdec
      exact ⟨nnn, by rw [encode_of_decodeWord hdec], by simpa using h⟩
    · cases h

/-- A step on the word of an instruction that every machine recognises. -/
theorem step_of_encode {i : Instr} (hw : fetch s = .ok (encode i)) (hi : i.isExtra = false) :
    step s = exec i (advance s) := by
  simp only [step, hw, recognise_encode hi]

end Sys2Proof.Machine

open Sys2Proof Sys2Proof.Machine

/-- Settles O45: an operation keeps memory, makes it empty, or writes it by blocks inside the address space. -/
theorem hostOpKeepsMemoryCanonical : Obligations.HostOpKeepsMemoryCanonical := by
  intro op s hs
  cases op with
  | reset => exact memoryCanonical_construct s.params
  | loadProgram bs => exact memoryCanonical_loadProgram bs hs
  | cycle => exact memoryCanonical_cycle hs
  | keySet k => exact memoryCanonical_putKey k true hs
  | keyClear k => exact memoryCanonical_putKey k false hs
  | restore r => exact memoryCanonical_restore r hs
  | keyQuery | framebufferRead | timerTick | snapshot | soundActive => exact hs

/-- Settles O40: both instructions write back the PC of their own cycle, and nothing else. -/
theorem waitAndSelfJumpRepeat : Obligations.WaitAndSelfJumpRepeat := by
  intro s
  constructor
  · intro h
    obtain ⟨nnn, hw, hself⟩ := fetch_of_haltedAt h
    rw [step_of_encode hw rfl, exec_jp, hself, setPc_advance_self]
  · intro x hpc hword hnone
    have hw : fetch s = .ok (encode (.ldVxK x)) := (fetch_ok s hpc).trans (congrArg _ hword)
    have hback : (advance s).pc - 2 = s.pc := BitVec.add_sub_cancel s.pc 2
    rw [step_of_encode hw rfl, exec_ldVxK_waiting (s := advance s) x hnone, hback, setPc_advance_self]

/-- Settles O41: nothing is listed at construction, so the font region reads as the font. -/
theorem constructionPcAndFont : Obligations.ConstructionPcAndFont := by
  intro p
  refine ⟨rfl, fun k => ?_⟩
  rw [memRead_inside (by omega), byteAt_construct, unlisted_font]

/-- Settles O42: every vector is a replicated zero, and memory reads as zero above the font. -/
theorem constructionZeroes : Obligations.ConstructionZeroes := by
  intro p
  refine ⟨fun r => Vector.getElem_replicate r.isLt, rfl, rfl, stack_construct p, rfl, rfl, Framebuffer.pixel_clear,
    fun k => Vector.getElem_replicate k.isLt, fun a hlow hhigh => ?_⟩
  rw [memRead_inside (by omega), byteAt_construct, unlisted_zero hlow]

/-- Settles O43, one invariant at a time. -/
theorem constructionMeetsInvariants : Obligations.ConstructionMeetsInvariants :=
  fun p => ⟨memoryCanonical_construct p, pcBounded_construct p, fontIntact_construct p⟩

end
